-- ==== Sys2Proof/Word.lean ====
section
/-! DEFINITION. The word types of the block (spec 00_scope.md R9, R10, R12; 30_encoding.md R70). Every value is unsigned. -/

namespace Sys2Proof

/-- A byte: 8 bits, unsigned (R12). -/
abbrev Byte := BitVec 8

/-- A 16-bit value: a checksum, a length, a sequence number (R12, R30). -/
abbrev Half := BitVec 16

/-- A node identifier: 32 bits, unsigned (R10). -/
abbrev NodeId := BitVec 32

/-- A time: TIME_WIDTH = 32 bits, unsigned, wrapping (R9, decision D7 of the spec). Log entry 17. -/
abbrev Time := BitVec 32

/-- The command word `w[9:0]` of the input port (R70). -/
abbrev CmdWord := BitVec 10

end Sys2Proof
end

