-- ==== Sys2Proof/Config.lean ====
section
/-! DEFINITION. The implementation parameters (spec 00_scope.md R5-R8, R11): fixed for a build, not state (10_state.md R37).
Those the spec leaves OPEN are opaque constants, so that no proof can see a value of them. -/

namespace Sys2Proof

/-- The parameters the parser takes as arguments (R5, R6, R8). -/
structure Params where
  /-- START_MARKER (R5). -/
  startMarker : Half
  /-- MAX_FRAG, the size of the payload scratch buffer in bytes (R6). -/
  maxFrag : Nat
  /-- SEEK_RECHECK: after SM_LO, a byte that is not SM_HI is examined again as a candidate SM_LO (R8). -/
  seekRecheck : Bool
deriving DecidableEq, Repr

/-- The legal range of MAX_FRAG: 1 to 65535 (R6). -/
abbrev Params.Legal (p : Params) : Prop := 1 ≤ p.maxFrag ∧ p.maxFrag ≤ 65535

/-- The kernel's parameters TIMEOUT and MAX_RETRIES; they enter only through the stale-session guard (R11). -/
structure KernelParams where
  timeout : Nat
  maxRetries : Nat
deriving DecidableEq, Repr

/-- START_MARKER is OPEN (R5, decision D4 of the spec): no value is known of it. DESIGN CHOICE, log entry 8. -/
opaque Config.startMarker : Half

/-- MAX_FRAG − 1, OPEN: any number below 65535 (R6). DESIGN CHOICE, log entry 9. -/
opaque Config.maxFragPred : Fin 65535

/-- MAX_FRAG: OPEN in 1..65535 (R6, decision D5 of the spec). -/
def Config.maxFrag : Nat := Config.maxFragPred.val + 1

/-- SEEK_RECHECK: this spec's value is true (R8, decision D8 of the spec). Log entry 10. -/
def Config.seekRecheck : Bool := true

/-- TIMEOUT of the kernel, in units of `now`: OPEN (R11, decision D27 of the spec). DESIGN CHOICE, log entry 12. -/
opaque Config.timeout : Nat

/-- MAX_RETRIES of the kernel: OPEN (R11, decision D27 of the spec). DESIGN CHOICE, log entry 12. -/
opaque Config.maxRetries : Nat

/-- The parameters of the build the machine runs with. -/
def Config.params : Params :=
  { startMarker := Config.startMarker, maxFrag := Config.maxFrag, seekRecheck := Config.seekRecheck }

/-- The parameters of the surrounding kernel. -/
def Config.kernel : KernelParams := { timeout := Config.timeout, maxRetries := Config.maxRetries }

end Sys2Proof
end

