-- ==== Sys2Proof/Syntax.lean ====
section
/-! DEFINITION. The commands of the block (spec 30_encoding.md R71, opcode_table.json) and the header of a frame (42_wire_functions.md R170). -/

namespace Sys2Proof

/-- One constructor per row of spec/opcode_table.json. The block's "instructions" are the commands of its input port (R1, R71). -/
inductive Instr where
  /-- The idle step (41_parser.md R121). -/
  | nop
  /-- Consumes one byte `b = din[7:0]` of the incoming stream (41_parser.md R125). -/
  | push (b : Byte)
  /-- The kernel's forced parser reset (41_parser.md R123). -/
  | reset
  /-- The parser's part of `init(settings)`; its operand is the side input cfg_local_id (41_parser.md R122). -/
  | init
deriving DecidableEq, Repr

/-- What decoding a command word gives: one of the four commands, or RESERVED (R74). -/
inductive Decoded where
  | command (i : Instr)
  | reserved
deriving DecidableEq, Repr

/-- The header fields of a frame, without its length and its checksum (R170). `cls` is the spec's `class`. -/
structure Header where
  src : NodeId
  dst : NodeId
  cls : Byte
  mtype : Byte
  total : Half
  ackreq : Byte
  seq : Half
deriving DecidableEq, Repr

end Sys2Proof
end

