-- ==== Sys2Proof/Machine/State.lean ====
section
/-! DEFINITION. The state of the machine as plain data (spec 10_state.md R20-R29, R35), the events it emits (60_exceptions.md
R181), the commands it takes (30_encoding.md R70), the reasons a step can stop, and the state at power-on (70_reset_and_hazards.md R210). -/

namespace Sys2Proof.Machine

/-- The parser state PSTATE (R22). -/
inductive PState where
  | seekStart
  | readingHeader
  | readingPayload
deriving DecidableEq, Repr

/-- One of the block's three byte buffers: the header buffer HBUF (R24), the payload scratch buffer PBUF (R26), the
received payload-checksum bytes PCRC_RX (R28). -/
inductive Buffer where
  | hbuf
  | pbuf
  | pcrcRx
deriving DecidableEq, Repr

/-- The contents of a buffer: (index, byte) pairs with strictly rising indexes. An index that is not listed has not been
written and has no value (R36; log entry 6). -/
abbrev Memory := List Host.Cell

/-- The reconstructed frame carried by FRAME_OUT (41_parser.md R140). The header fields stand in `header` (log entry 20). -/
structure FrameRecord where
  header : Header
  len : Half
  hcrc : Half
  /-- The received payload checksum; none when LEN = 0. -/
  pcrc : Option Half
  payload : List Byte
deriving DecidableEq, Repr

/-- The events a step can emit (60_exceptions.md R181). -/
inductive Event where
  /-- Code 0: the frame is dispatched to the kernel. -/
  | frameOut (record : FrameRecord)
  /-- Code 1: a negative acknowledgment is requested to `target`. -/
  | nackReq (target : NodeId)
  /-- Code 2: header checksum mismatch. -/
  | logHdrCrc (computed received : Half)
  /-- Code 3: payload checksum mismatch. -/
  | logPayCrc (computed received : Half) (src : NodeId)
  /-- Code 4: the declared payload is longer than the scratch buffer. -/
  | logLen (len : Half)
deriving DecidableEq, Repr

/-- One command as the driver presents it: the command word and its two side inputs (30_encoding.md R70). -/
structure Command where
  word : CmdWord
  now : Time
  cfgLocalId : NodeId
deriving DecidableEq, Repr

/-- The kernel's role. It is no state of the block (10_state.md R37); only the model of the stale-session guard reads it
(60_exceptions.md R192). -/
inductive Role where
  | idle
  | sending
  | receiving
deriving DecidableEq, Repr

/-- The whole state of the model. -/
structure State where
  /-- INITIALIZED (R20): an INIT has been taken since power-on. -/
  initialized : Bool
  /-- LOCAL_ID (R21): the local node identifier. -/
  localId : NodeId
  /-- PSTATE (R22). -/
  pstate : PState
  /-- SEEK_MATCHED (R23): within SeekStart, the previous byte matched SM_LO. -/
  seekMatched : Bool
  /-- HBUF (R24): 17 header-field bytes at 0..16, 2 header-checksum bytes at 17..18. -/
  hbuf : Memory
  /-- HCOUNT (R25): header-phase bytes received in the current frame. Log entry 19. -/
  hcount : Nat
  /-- PBUF (R26): the payload scratch buffer. -/
  pbuf : Memory
  /-- PCOUNT (R27): bytes received in ReadingPayload. Log entry 19. -/
  pcount : Nat
  /-- PCRC_RX (R28): the received payload-checksum bytes, low byte at 0. -/
  pcrcRx : Memory
  /-- LAST_PROGRESS (R29): the timestamp of the last progress. -/
  lastProgress : Time
  /-- The side input `now` sampled with the command being executed (30_encoding.md R70); the model's own field, log entry 1. -/
  now : Time
  /-- The side input cfg_local_id presented with the command being executed (30_encoding.md R70); the model's own field, log entry 1. -/
  cfgLocalId : NodeId
  /-- The commands the driver has still to present, next one first (20_memory.md R60); the model's own field, log entry 1. -/
  commands : List Command
  /-- The events emitted so far, oldest first (60_exceptions.md R181; 70_reset_and_hazards.md R225); the model's own record, log entry 3. -/
  events : List Event
deriving DecidableEq, Repr

/-- Reasons the machine stops with a fault. The block has no fault outcome of its own (00_scope.md R14); each of these is
raised only where the spec gives no behaviour. -/
inductive Fault where
  /-- Raised by `storeByte` when a counter points outside the buffer's array. No state that meets R31 raises it (20_memory.md
  R58). Safe: the model stops where the spec describes no machine. Log entry 7. -/
  | bufferRange (k : Buffer)
  /-- Raised by PUSH when it needs a buffer byte that nothing has written. R36 allows this fault and says it is never reached.
  Safe. Log entry 6. -/
  | unwrittenByte (k : Buffer)
  /-- Raised by the read port of LAST_PROGRESS before the first INIT, never by a step. The spec states this stop: 'its read port
  returns no defined value before INIT; a model faults a read of it' (70_reset_and_hazards.md R210; 10_state.md R35 'unreadable';
  93_implementation_defined.md I3 'fault'; 92_eei_decisions.md D18 'they fault'). Safe. -/
  | unreadableRegister
deriving DecidableEq, Repr

/-- Reasons the model gives a command no meaning. A refusal ends the run (60_exceptions.md R187). -/
inductive Refusal where
  /-- An instruction that has no meaning in this model; raised by no arm. Safe. -/
  | notModelled (mnemonic : String)
  /-- RF_RESERVED: a reserved command word, raised by the step (30_encoding.md R72, 60_exceptions.md R187). Safe. -/
  | reserved
  /-- RF_NOT_INIT: PUSH or RESET before the first INIT, raised by those two (41_parser.md R123, R125; 60_exceptions.md R187). Safe. -/
  | notInit
deriving DecidableEq, Repr

/-- What a step or a meaning answers. -/
abbrev Result := Host.Outcome State Fault Refusal

/-- The state at power-on, before any command (R210). LOCAL_ID and LAST_PROGRESS have no value there: the 0 they hold is a DESIGN CHOICE
(log entries 4 and 5). No buffer byte has a value (log entry 6). No command waits and none is being executed (log entry 1). -/
def State.reset : State :=
  { initialized := false
    localId := 0#32
    pstate := .seekStart
    seekMatched := false
    hbuf := []
    hcount := 0
    pbuf := []
    pcount := 0
    pcrcRx := []
    lastProgress := 0#32
    now := 0#32
    cfgLocalId := 0#32
    commands := []
    events := [] }

end Sys2Proof.Machine
end

