-- ==== Sys2Proof/Machine/Ops.lean ====
section
/-! DEFINITION. The named operations over the buffers and the registers (spec 00_scope.md R13; 20_memory.md R58). The block
has no traps (60_exceptions.md R180): what ends a frame is `State.endFrame`, one shared operation. -/

namespace Sys2Proof.Machine

/-! ### Byte buffers -/

/-- The byte at an index, if it has been written (R13: the block's MemRead of one byte). -/
def Memory.read : Memory → Nat → Option Byte
  | [], _ => none
  | (x, v) :: m, a => if a = x then some v else Memory.read m a

/-- Writes one byte, keeping the indexes strictly rising (R13: the block's MemWrite of one byte). -/
def Memory.write : Memory → Nat → Byte → Memory
  | [], a, b => [(a, b)]
  | (x, v) :: m, a, b =>
    if a < x then (a, b) :: (x, v) :: m
    else if a = x then (a, b) :: m
    else (x, v) :: Memory.write m a b

/-- The `n` bytes from index `a` on, if all have been written. -/
def Memory.slice (m : Memory) (a : Nat) : Nat → Option (List Byte)
  | 0 => some []
  | n + 1 =>
    match Memory.read m a, Memory.slice m (a + 1) n with
    | some b, some bs => some (b :: bs)
    | _, _ => none

/-- The canonical form: indexes strictly rising. -/
def Memory.wf : Memory → Bool
  | [] => true
  | [_] => true
  | c :: d :: m => decide (c.1 < d.1) && Memory.wf (d :: m)

/-- Every listed index is below `n`. -/
def Memory.below (n : Nat) (m : Memory) : Bool := m.all fun c => decide (c.1 < n)

/-- The size of a buffer's array: HBUF 19 (R24), PBUF MAX_FRAG (R26), PCRC_RX 2 (R28). -/
def Buffer.size (p : Params) : Buffer → Nat
  | .hbuf => 19
  | .pbuf => p.maxFrag
  | .pcrcRx => 2

/-- The contents of a buffer. -/
def State.buf (s : State) : Buffer → Memory
  | .hbuf => s.hbuf
  | .pbuf => s.pbuf
  | .pcrcRx => s.pcrcRx

/-- Replaces the contents of a buffer. -/
def State.setBuf (s : State) (k : Buffer) (m : Memory) : State :=
  match k with
  | .hbuf => { s with hbuf := m }
  | .pbuf => { s with pbuf := m }
  | .pcrcRx => { s with pcrcRx := m }

/-- `BUF[i] <- b` (R13, R58). An index outside the array does not exist and faults (log entry 7). -/
def storeByte (p : Params) (k : Buffer) (i : Nat) (b : Byte) (s : State) : Result :=
  if i < k.size p then .next (s.setBuf k (Memory.write (s.buf k) i b))
  else .fault (.bufferRange k)

/-! ### Sequencing of the parts of one step -/

/-- Goes on with `f` from a next state; a fault or a refusal ends the step. -/
def andThen (r : Result) (f : State → Result) : Result :=
  match r with
  | .next s => f s
  | .fault e => .fault e
  | .refused e => .refused e

/-- `refuse(RF_NOT_INIT)` unless an INIT has been taken (41_parser.md R123, R125). -/
def requireInit (s : State) (f : State → Result) : Result :=
  if s.initialized then f s else .refused .notInit

/-! ### Register writes -/

/-- `LAST_PROGRESS <- now` (41_parser.md R141). -/
def State.touch (s : State) : State := { s with lastProgress := s.now }

/-- ResetParse(): the parse-state reset (41_parser.md R124). It writes nothing else. -/
def State.resetParse (s : State) : State :=
  { s with pstate := .seekStart, seekMatched := false, hcount := 0, pcount := 0 }

/-- `LOCAL_ID <- cfg_local_id; INITIALIZED <- true` (41_parser.md R122). -/
def State.configure (s : State) : State := { s with localId := s.cfgLocalId, initialized := true }

/-- `SEEK_MATCHED <- m` (41_parser.md R126, R127). -/
def State.setMatched (s : State) (m : Bool) : State := { s with seekMatched := m }

/-- The transition to ReadingHeader on a matched marker (41_parser.md R127). -/
def State.enterHeader (s : State) : State :=
  { s with pstate := .readingHeader, hcount := 0, seekMatched := false }

/-- The transition to ReadingPayload (41_parser.md R134). -/
def State.enterPayload (s : State) : State := { s with pstate := .readingPayload, pcount := 0 }

/-- `HCOUNT <- n` (41_parser.md R128). -/
def State.setHcount (s : State) (n : Nat) : State := { s with hcount := n }

/-- `PCOUNT <- n` (41_parser.md R135-R137). -/
def State.setPcount (s : State) (n : Nat) : State := { s with pcount := n }

/-- `emit`: appends events to the output, in order (00_scope.md R13, 60_exceptions.md R185). -/
def State.emit (s : State) (es : List Event) : State := { s with events := s.events ++ es }

/-- The end of a frame: the frame's events, then ResetParse (41_parser.md R130-R133, R138, R139; 60_exceptions.md R180). -/
def State.endFrame (es : List Event) (s : State) : State := (s.emit es).resetParse

/-! ### The input port -/

/-- The driver presents command `c`, and `rest` are left: the side inputs are sampled (30_encoding.md R70). -/
def State.present (s : State) (c : Command) (rest : List Command) : State :=
  { s with now := c.now, cfgLocalId := c.cfgLocalId, commands := rest }

/-- The driver puts further commands behind those that wait (20_memory.md R60). -/
def State.issue (s : State) (cs : List Command) : State := { s with commands := s.commands ++ cs }

/-- No command waits: nothing happens (60_exceptions.md R196, 70_reset_and_hazards.md R225; log entry 2). -/
def idle (s : State) : Result := .next s

/-- `Refused(RF_RESERVED)` (41_parser.md R120, 60_exceptions.md R187). -/
def refuseReserved : Result := .refused .reserved

/-! ### Numeric encodings of a read-out -/

/-- The code of PSTATE: SeekStart = 0, ReadingHeader = 1, ReadingPayload = 2; 3 is never held (R22). -/
def PState.code : PState → BitVec 2
  | .seekStart => 0
  | .readingHeader => 1
  | .readingPayload => 2

/-- The code of an event (60_exceptions.md R181). -/
def Event.code : Event → Nat
  | .frameOut _ => 0
  | .nackReq _ => 1
  | .logHdrCrc _ _ => 2
  | .logPayCrc _ _ _ => 3
  | .logLen _ => 4

end Sys2Proof.Machine
end

