-- ==== Sys2Proof/Machine/Control.lean ====
section
/-! DEFINITION. The meanings of NOP, INIT and RESET (spec 41_parser.md R121-R124). -/

namespace Sys2Proof.Machine

/-- NOP: no effect, not even on LAST_PROGRESS; accepted before INIT (R121). -/
def execNop (s : State) : Result := .next s

/-- INIT: loads LOCAL_ID, sets INITIALIZED, clears the parse, stamps LAST_PROGRESS; accepted in every state (R122). -/
def execInit (s : State) : Result := .next s.configure.resetParse.touch

/-- RESET: clears the parse and stamps LAST_PROGRESS; refused before the first INIT (R123). -/
def execReset (s : State) : Result := requireInit s fun s => .next s.resetParse.touch

end Sys2Proof.Machine
end

