-- ==== Sys2Proof/Machine/Bytes.lean ====
section
/-! DEFINITION. Byte order and byte slices (spec 00_scope.md R5, R12; 20_memory.md R52, R53): every multi-byte value is
little-endian, its first byte on the wire the least significant. -/

namespace Sys2Proof.Machine

/-- `le16(b0, b1) = zext_16(b0) | (zext_16(b1) << 8)` (R12). -/
def le16 (b0 b1 : Byte) : Half := b0.setWidth 16 ||| (b1.setWidth 16 <<< 8)

/-- `le32(b0, b1, b2, b3) = b0 | b1<<8 | b2<<16 | b3<<24` (R12). -/
def le32 (b0 b1 b2 b3 : Byte) : BitVec 32 :=
  b0.setWidth 32 ||| (b1.setWidth 32 <<< 8) ||| (b2.setWidth 32 <<< 16) ||| (b3.setWidth 32 <<< 24)

/-- `le16bytes(v) = [v[7:0], v[15:8]]` (42_wire_functions.md R170). -/
def le16Bytes (v : Half) : List Byte := [v.extractLsb' 0 8, v.extractLsb' 8 8]

/-- `le32bytes(v) = [v[7:0], v[15:8], v[23:16], v[31:24]]` (42_wire_functions.md R170). -/
def le32Bytes (v : BitVec 32) : List Byte :=
  [v.extractLsb' 0 8, v.extractLsb' 8 8, v.extractLsb' 16 8, v.extractLsb' 24 8]

/-- SM_LO, the marker byte that comes first on the wire (R5). -/
def smLo (p : Params) : Byte := p.startMarker.extractLsb' 0 8

/-- SM_HI, the marker byte that comes second on the wire (R5). -/
def smHi (p : Params) : Byte := p.startMarker.extractLsb' 8 8

end Sys2Proof.Machine
end

