-- ==== Sys2Proof/Machine/Crc.lean ====
section
/-! DEFINITION. The CRC validator's arithmetic: CRC-16/MODBUS (spec 40_crc.md R100, R101). -/

namespace Sys2Proof.Machine

/-- One round of the loop of R100: shift right, and fold in 0xA001 when the bit shifted out is 1. -/
def crcBit (c : Half) : Half :=
  if c.getLsbD 0 then (c >>> 1) ^^^ 0xA001#16 else c >>> 1

/-- `n` rounds of the loop of R100. -/
def crcBits : Nat → Half → Half
  | 0, c => c
  | n + 1, c => crcBits n (crcBit c)

/-- CRC_STEP: folds one byte into the running checksum, eight rounds (R100). -/
def crcStep (c : Half) (b : Byte) : Half := crcBits 8 (c ^^^ b.setWidth 16)

/-- CRC16: initial value 0xFFFF, one CRC_STEP per byte in wire order, no final exclusive-or (R101; log entry 11). -/
def crc16 (bs : List Byte) : Half := bs.foldl crcStep 0xFFFF#16

end Sys2Proof.Machine
end

