-- ==== Sys2Proof/Machine/Operands.lean ====
section
/-! DEFINITION. What a step reads: the bytes of the buffers and the header-field views of HBUF (spec 10_state.md R30). PUSH's
operand is the byte of its constructor (30_encoding.md R73); INIT's is the side input `cfgLocalId` of State. -/

namespace Sys2Proof.Machine

/-- The 19 bytes of HBUF, if all have been written. -/
def headerBytes (s : State) : Option (List Byte) := Memory.slice s.hbuf 0 19

/-- `PBUF[0..n)`, if all have been written. -/
def payloadBytes (s : State) (n : Nat) : Option (List Byte) := Memory.slice s.pbuf 0 n

/-- `PCRC_RX[0..1]`, if both have been written. -/
def checksumBytes (s : State) : Option (List Byte) := Memory.slice s.pcrcRx 0 2

/-- `HBUF[i]` in the bytes read from HBUF. The lists the views are applied to have 19 elements (`headerBytes`), and no view
looks past index 18, so the default is never used. -/
def byteAt (bs : List Byte) (i : Nat) : Byte := bs.getD i 0#8

/-- SRC = le32(HBUF[0], HBUF[1], HBUF[2], HBUF[3]) (R30). -/
def viewSrc (hb : List Byte) : NodeId := le32 (byteAt hb 0) (byteAt hb 1) (byteAt hb 2) (byteAt hb 3)

/-- DST = le32(HBUF[4], HBUF[5], HBUF[6], HBUF[7]) (R30). -/
def viewDst (hb : List Byte) : NodeId := le32 (byteAt hb 4) (byteAt hb 5) (byteAt hb 6) (byteAt hb 7)

/-- CLASS = HBUF[8] (R30). -/
def viewClass (hb : List Byte) : Byte := byteAt hb 8

/-- MTYPE = HBUF[9] (R30). -/
def viewMtype (hb : List Byte) : Byte := byteAt hb 9

/-- TOTAL = le16(HBUF[10], HBUF[11]) (R30). -/
def viewTotal (hb : List Byte) : Half := le16 (byteAt hb 10) (byteAt hb 11)

/-- ACKREQ = HBUF[12] (R30). -/
def viewAckreq (hb : List Byte) : Byte := byteAt hb 12

/-- SEQ = le16(HBUF[13], HBUF[14]) (R30). -/
def viewSeq (hb : List Byte) : Half := le16 (byteAt hb 13) (byteAt hb 14)

/-- LEN = le16(HBUF[15], HBUF[16]) (R30). -/
def viewLen (hb : List Byte) : Half := le16 (byteAt hb 15) (byteAt hb 16)

/-- HCRC_RX = le16(HBUF[17], HBUF[18]) (R30). -/
def viewHcrc (hb : List Byte) : Half := le16 (byteAt hb 17) (byteAt hb 18)

/-- The received payload checksum, le16(PCRC_RX[0], PCRC_RX[1]) (40_crc.md R104, R105). -/
def viewPcrc (rx : List Byte) : Half := le16 (byteAt rx 0) (byteAt rx 1)

/-- The header fields of the frame record (41_parser.md R140). -/
def viewHeader (hb : List Byte) : Header :=
  { src := viewSrc hb
    dst := viewDst hb
    cls := viewClass hb
    mtype := viewMtype hb
    total := viewTotal hb
    ackreq := viewAckreq hb
    seq := viewSeq hb }

/-- FrameRecord(payload), built from the header views at the emitting step (41_parser.md R140). -/
def frameRecord (hb : List Byte) (pcrc : Option Half) (payload : List Byte) : FrameRecord :=
  { header := viewHeader hb
    len := viewLen hb
    hcrc := viewHcrc hb
    pcrc := pcrc
    payload := payload }

end Sys2Proof.Machine
end

