-- ==== Sys2Proof/Machine/Flags.lean ====
section
/-! DEFINITION. The conditions a step tests. The block has no condition codes and no status flags (spec 10_state.md R34): the
outcome of a check is used in its step and reported only as an event. -/

namespace Sys2Proof.Machine

/-- The computed header checksum: CRC16 of the marker and HBUF[0..16] (40_crc.md R103). -/
def headerCalc (p : Params) (hb : List Byte) : Half := crc16 ([smLo p, smHi p] ++ hb.take 17)

/-- HeaderCheck(HBUF) (40_crc.md R103): exact equality with the received checksum (R106). -/
def headerCheck (p : Params) (hb : List Byte) : Bool := headerCalc p hb == viewHcrc hb

/-- PayloadCheck(PBUF, PCRC_RX, LEN) on the LEN payload bytes (40_crc.md R104): exact equality (R106). -/
def payloadCheck (payload rx : List Byte) : Bool := crc16 payload == viewPcrc rx

/-- The first test of SeekLow and the second of SeekHigh: `b == SM_LO` (41_parser.md R126, R127). -/
def isMarkerLow (p : Params) (b : Byte) : Bool := b == smLo p

/-- The first test of SeekHigh: `b == SM_HI` (41_parser.md R127). -/
def isMarkerHigh (p : Params) (b : Byte) : Bool := b == smHi p

/-- The declared payload does not fit the scratch buffer: `LEN > MAX_FRAG` (41_parser.md R129, R132). -/
def lengthExceeds (p : Params) (hb : List Byte) : Bool := decide (p.maxFrag < (viewLen hb).toNat)

end Sys2Proof.Machine
end

