-- ==== Sys2Proof/Machine/Push.lean ====
section
/-! DEFINITION. The meaning of PUSH in every parser state (spec 41_parser.md R125-R140). Each part takes the parameters as an
argument; the machine runs them with `Config.params`. -/

namespace Sys2Proof.Machine

/-! ### SeekStart -/

/-- SeekLow(b): looks for the first marker byte (R126). -/
def seekLow (p : Params) (b : Byte) (s : State) : State := s.setMatched (isMarkerLow p b)

/-- SeekHigh(b): looks for the second marker byte; the SM_HI test comes first (R127). -/
def seekHigh (p : Params) (b : Byte) (s : State) : State :=
  if isMarkerHigh p b then s.enterHeader
  else if p.seekRecheck && isMarkerLow p b then s.setMatched true
  else s.setMatched false

/-! ### ReadingHeader -/

/-- HeaderCrcError(): a log, no NACK, resynchronise (R130). -/
def headerCrcError (p : Params) (hb : List Byte) (s : State) : State :=
  s.endFrame [.logHdrCrc (headerCalc p hb) (viewHcrc hb)]

/-- DestinationDrop(): silent (R131). -/
def destinationDrop (s : State) : State := s.endFrame []

/-- LengthError(): LOG_LEN, no NACK, resynchronise (R132). -/
def lengthError (hb : List Byte) (s : State) : State := s.endFrame [.logLen (viewLen hb)]

/-- DispatchEmpty(): the frame without payload is handed out (R133). -/
def dispatchEmpty (hb : List Byte) (s : State) : State := s.endFrame [.frameOut (frameRecord hb none [])]

/-- HeaderComplete(): the checks in their fixed order, the first that applies decides (R129). -/
def headerComplete (p : Params) (hb : List Byte) (s : State) : State :=
  if !headerCheck p hb then headerCrcError p hb s
  else if viewDst hb ≠ s.localId then destinationDrop s
  else if lengthExceeds p hb then lengthError hb s
  else if viewLen hb = 0#16 then dispatchEmpty hb s
  else s.enterPayload

/-- HeaderByte(b): stores the byte at HCOUNT; at the 19th the header is complete (R128). -/
def headerByte (p : Params) (b : Byte) (s : State) : Result :=
  andThen (storeByte p .hbuf s.hcount b s) fun s =>
    let s := s.setHcount (s.hcount + 1)
    if s.hcount = 19 then
      match headerBytes s with
      | some hb => .next (headerComplete p hb s)
      | none => .fault (.unwrittenByte .hbuf)
    else .next s

/-! ### ReadingPayload -/

/-- PayloadAccept(): the frame with its payload is handed out (R138). -/
def payloadAccept (hb payload rx : List Byte) (s : State) : State :=
  s.endFrame [.frameOut (frameRecord hb (some (viewPcrc rx)) payload)]

/-- PayloadCrcError(): a log, then one NACK request to the frame's source (R139). -/
def payloadCrcError (hb payload rx : List Byte) (s : State) : State :=
  s.endFrame [.logPayCrc (crc16 payload) (viewPcrc rx) (viewSrc hb), .nackReq (viewSrc hb)]

/-- The frame is complete: the payload check decides (R137). -/
def payloadComplete (hb : List Byte) (s : State) : Result :=
  match payloadBytes s (viewLen hb).toNat, checksumBytes s with
  | some payload, some rx =>
    .next (if payloadCheck payload rx then payloadAccept hb payload rx s else payloadCrcError hb payload rx s)
  | none, _ => .fault (.unwrittenByte .pbuf)
  | some _, none => .fault (.unwrittenByte .pcrcRx)

/-- PayloadByte(b) with the header at hand: a payload byte while PCOUNT < LEN (R135), then the two checksum bytes at
PCOUNT − LEN (20_memory.md R58; R136, R137), the second of which completes the frame. -/
def payloadStore (p : Params) (hb : List Byte) (b : Byte) (s : State) : Result :=
  let len := (viewLen hb).toNat
  if s.pcount < len then
    andThen (storeByte p .pbuf s.pcount b s) fun s => .next (s.setPcount (s.pcount + 1))
  else
    andThen (storeByte p .pcrcRx (s.pcount - len) b s) fun s =>
      let s := s.setPcount (s.pcount + 1)
      if s.pcount = len + 2 then payloadComplete hb s else .next s

/-- PayloadByte(b): LEN is the view of HBUF (R30, R135). -/
def payloadByte (p : Params) (b : Byte) (s : State) : Result :=
  match headerBytes s with
  | some hb => payloadStore p hb b s
  | none => .fault (.unwrittenByte .hbuf)

/-! ### PUSH -/

/-- PUSH with parameters `p`: refused before the first INIT; LAST_PROGRESS takes `now`; then the rule of PSTATE (R125). -/
def pushWith (p : Params) (b : Byte) (s : State) : Result :=
  requireInit s fun s =>
    let s := s.touch
    match s.pstate with
    | .seekStart => .next (if s.seekMatched then seekHigh p b s else seekLow p b s)
    | .readingHeader => headerByte p b s
    | .readingPayload => payloadByte p b s

/-- PUSH (R125). -/
def execPush (b : Byte) (s : State) : Result := pushWith Config.params b s

end Sys2Proof.Machine
end

