-- ==== Sys2Proof/WellFormed.lean ====
section
/-! DEFINITION. What is well formed: an instruction, a command word, a payload to be encoded, the parameters. -/

namespace Sys2Proof

/-- Every instruction is well formed: PUSH takes any byte, the others have no operand (spec 30_encoding.md R73; 41_parser.md R125). -/
def Instr.wellFormed : Instr → Bool
  | .nop => true
  | .push _ => true
  | .reset => true
  | .init => true

/-- A command word is well formed when it is not reserved: `cmd` is PUSH, or `din` is 0 (R72). -/
def CmdWord.wellFormed (w : CmdWord) : Bool :=
  w.extractLsb' 8 2 == 1#2 || w.extractLsb' 0 8 == 0#8

/-- The payload of a frame to be encoded: at most 65535 bytes, the range of the 16-bit length field (42_wire_functions.md R170). -/
def payloadWellFormed (payload : List Byte) : Bool := decide (payload.length ≤ 65535)

/-- Legal parameters, as a check (00_scope.md R6). -/
def Params.wellFormed (p : Params) : Bool := decide p.Legal

end Sys2Proof
end

