-- ==== Sys2Proof/Decode.lean ====
section
/-! DEFINITION. The decoder of command words, total on the 1024 words, and after it the encoder (spec 30_encoding.md R70-R75). -/

namespace Sys2Proof

/-- `cmd = w[9:8]`, the command code (R70). -/
def cmdField (w : CmdWord) : BitVec 2 := w.extractLsb' 8 2

/-- `din = w[7:0]`, the data byte (R70). -/
def dinField (w : CmdWord) : Byte := w.extractLsb' 0 8

/-- Decoding (R71, R74): PUSH takes any `din`; the other codes require `din = 0`, or the word is RESERVED (R72). -/
def decode (w : CmdWord) : Decoded :=
  if cmdField w = 0b01#2 then .command (.push (dinField w))
  else if dinField w ≠ 0#8 then .reserved
  else if cmdField w = 0b00#2 then .command .nop
  else if cmdField w = 0b10#2 then .command .reset
  else .command .init

/-- The command word of an instruction: the command code of R71 above its `din` byte. -/
def encode : Instr → CmdWord
  | .nop => 0b00#2 ++ 0#8
  | .push b => 0b01#2 ++ b
  | .reset => 0b10#2 ++ 0#8
  | .init => 0b11#2 ++ 0#8

/-- The instruction this decoder reads from a table word. The command word is ten wires (R70), so a number of 1024 or more
is no command word and gives no instruction; `nbits` is not needed, since every command is one word long (R74). -/
def decodeTableWord (_nbits w : Nat) : Option Instr :=
  if w < 1024 then
    match decode (BitVec.ofNat 10 w) with
    | .command i => some i
    | .reserved => none
  else none

end Sys2Proof
end

