-- ==== Sys2Proof/Machine/Wire.lean ====
section
/-! DEFINITION. The pure wire-format functions beside the block (spec 42_wire_functions.md R170-R172; 30_encoding.md R79, R84,
R85; 00_scope.md R6, R7). They carry no state. -/

namespace Sys2Proof.Machine

/-- The first 19 bytes of a frame: the marker and the 17 header-field bytes (R76, R170). -/
def encodeHeader (p : Params) (h : Header) (len : Half) : List Byte :=
  [smLo p, smHi p] ++ le32Bytes h.src ++ le32Bytes h.dst ++ [h.cls, h.mtype] ++ le16Bytes h.total
    ++ [h.ackreq] ++ le16Bytes h.seq ++ le16Bytes len

/-- A byte sequence followed by its checksum, low byte first (R105). -/
def withChecksum (bs : List Byte) : List Byte := bs ++ le16Bytes (crc16 bs)

/-- EncodeFrame(h, p): the exact wire bytes of a frame (R170). The payload checksum is absent when the payload is empty (R78). -/
def encodeFrame (p : Params) (h : Header) (payload : List Byte) : List Byte :=
  withChecksum (encodeHeader p h (BitVec.ofNat 16 payload.length))
    ++ (if payload.length > 0 then withChecksum payload else [])

/-- `frame_length(LEN)`: 21 if LEN = 0, else 23 + LEN (R79). -/
def frameLength (len : Nat) : Nat := if len = 0 then 21 else 23 + len

/-- The MTU: MAX_FRAG + 23 (R6). -/
def mtu (p : Params) : Nat := p.maxFrag + 23

/-- FragmentCount(L, M) = max(1, (L + M − 1) div M) (R171). -/
def fragmentCount (l m : Nat) : Nat := max 1 ((l + m - 1) / m)

/-- The value of the 16-bit total-fragments field for a transfer, where it can carry the count; the spec gives no behaviour
for L > 65535 × M (R171; log entry 14). -/
def fragmentTotal (l m : Nat) : Option Half :=
  if fragmentCount l m ≤ 65535 then some (BitVec.ofNat 16 (fragmentCount l m)) else none

/-- The header of fragment `i`: it carries sequence number `i` (R172) and the count in the total-fragments field (R171), where
that field can carry it. -/
def fragmentHeader (h : Header) (l m i : Nat) : Option Header :=
  match fragmentTotal l m with
  | some total => some { h with total := total, seq := BitVec.ofNat 16 i }
  | none => none

/-- FragmentSlice(L, M, i): the payload bytes of fragment `i`, at offset i × M, at most M of them (R172). -/
def fragmentSlice (payload : List Byte) (m i : Nat) : List Byte := (payload.drop (i * m)).take m

/-- The command an instruction is presented as, with its side inputs (30_encoding.md R83). -/
def commandOf (i : Instr) (now : Time) (cfgLocalId : NodeId) : Command :=
  { word := encode i, now := now, cfgLocalId := cfgLocalId }

/-- FEED b0 b1 … @t: one PUSH per byte in order, `now` advancing by 1 per byte (R84). The rule does not say which cfg_local_id
accompanies a PUSH; 0 is a DESIGN CHOICE, log entry 21 (only INIT samples that input, R70). -/
def feed : List Byte → Time → List Command
  | [], _ => []
  | b :: bs, t => commandOf (.push b) t 0#32 :: feed bs (t + 1)

/-- FRAME … @t: FEED of the encoded frame (R85); its side inputs are those of `feed` (log entry 21). -/
def frameCommands (p : Params) (h : Header) (payload : List Byte) (t : Time) : List Command :=
  feed (encodeFrame p h payload) t

end Sys2Proof.Machine
end

