-- ==== Sys2Proof/Machine/Platform.lean ====
section
/-! DEFINITION. What stands around the block: the read port of LAST_PROGRESS (spec 10_state.md R35; 60_exceptions.md R191) and
the two RESETs the kernel's tick issues (60_exceptions.md R192, R193). They lie outside the block; they act on it only through commands. -/

namespace Sys2Proof.Machine

/-- The read port of LAST_PROGRESS: no side effect (R191). Before the first INIT it returns no defined value, and the spec asks
a model to fault the read (70_reset_and_hazards.md R210; 10_state.md R35; 93_implementation_defined.md I3). -/
def readLastProgress (s : State) : Host.Outcome Time Fault Refusal :=
  if s.initialized then .next s.lastProgress else .fault .unreadableRegister

/-- STALE_LIMIT = TIMEOUT × (MAX_RETRIES + 1) (00_scope.md R11). -/
def staleLimit (k : KernelParams) : Nat := k.timeout * (k.maxRetries + 1)

/-- `(now −_T LAST_PROGRESS) > STALE_LIMIT`, the difference modulo 2^TIME_WIDTH (R192). -/
def isStale (k : KernelParams) (now last : Time) : Bool := decide (staleLimit k < (now - last).toNat)

/-- The stale-session guard of one tick: in the Sending or Receiving role it issues RESET @now when the parser is stale; in
Idle it does not run (R192). The cfg_local_id beside the RESET is not given; 0 is a DESIGN CHOICE, log entry 21. -/
def guardCommands (k : KernelParams) (role : Role) (now : Time) (s : State) : Host.Outcome (List Command) Fault Refusal :=
  match role with
  | .idle => .next []
  | .sending | .receiving =>
    match readLastProgress s with
    | .next last => .next (if isStale k now last then [commandOf .reset now 0#32] else [])
    | .fault e => .fault e
    | .refused e => .refused e

/-- The tick reports that the role returned to idle: RESET @now (R193), with cfg_local_id 0 (DESIGN CHOICE, log entry 21). -/
def idleReturnCommands (now : Time) : List Command := [commandOf .reset now 0#32]

end Sys2Proof.Machine
end

