-- ==== Sys2Proof/Machine/Step.lean ====
section
/-! DEFINITION. One step of the block: it takes the next command, decodes its word and performs it (spec 41_parser.md R120). -/

namespace Sys2Proof.Machine

/-- The step (R120): the driver presents the next command; a reserved word is refused; with no command nothing happens (log entry 2). -/
def step (s : State) : Host.Outcome State Fault Refusal :=
  match s.commands with
  | [] => idle s
  | c :: rest =>
    match decode c.word with
    | .command i => exec i (s.present c rest)
    | .reserved => refuseReserved

/-- `s` with a command word put before the commands that wait, so that the next step takes it; the side inputs are the ones
`s` already holds. It stands for the driver's presenting the command (log entry 1). -/
def State.withFetchWord (s : State) (_nbits w : Nat) : State :=
  { s with commands := { word := BitVec.ofNat 10 w, now := s.now, cfgLocalId := s.cfgLocalId } :: s.commands }

end Sys2Proof.Machine
end

