-- ==== Sys2Proof/Safety.lean ====
section
/-! DEFINITION. What counts as a consistent state of the block between steps (spec 10_state.md R31, with R24, R26 and R36: what
is read was written in the current frame), and when two states differ only in stale buffer bytes (R36). -/

namespace Sys2Proof.Machine

/-- The indexes 0 to n − 1 have all been written. -/
def Memory.Written (m : Memory) (n : Nat) : Prop := ∀ a, a < n → (Memory.read m a).isSome = true

/-- R31 in SeekStart: both counts are 0. -/
def SeekOk (s : State) : Prop := s.hcount = 0 ∧ s.pcount = 0

/-- R31 in ReadingHeader; the header bytes counted so far have been written (R24, R36). -/
def HeaderOk (s : State) : Prop :=
  s.seekMatched = false ∧ s.hcount ≤ 18 ∧ s.pcount = 0 ∧ Memory.Written s.hbuf s.hcount

/-- R31 in ReadingPayload for the header bytes `hb`; the payload bytes and checksum bytes counted so far have been written
(R26, R28, R36). -/
def PayloadOkFor (p : Params) (hb : List Byte) (s : State) : Prop :=
  1 ≤ (viewLen hb).toNat ∧ (viewLen hb).toNat ≤ p.maxFrag ∧ s.pcount ≤ (viewLen hb).toNat + 1
    ∧ viewDst hb = s.localId ∧ headerCheck p hb = true
    ∧ Memory.Written s.pbuf (min s.pcount (viewLen hb).toNat)
    ∧ Memory.Written s.pcrcRx (s.pcount - (viewLen hb).toNat)

/-- R31 in ReadingPayload. -/
def PayloadOk (p : Params) (s : State) : Prop :=
  s.seekMatched = false ∧ s.hcount = 19 ∧ ∃ hb, headerBytes s = some hb ∧ PayloadOkFor p hb s

/-- R31, by PSTATE. -/
def PhaseOk (p : Params) (s : State) : Prop :=
  match s.pstate with
  | .seekStart => SeekOk s
  | .readingHeader => HeaderOk s
  | .readingPayload => PayloadOk p s

/-- R31 before the first INIT: SeekStart, unmatched. -/
def PreInitOk (s : State) : Prop :=
  s.initialized = false → s.pstate = .seekStart ∧ s.seekMatched = false

/-- Each buffer is in canonical form and lies within its array. -/
def BuffersOk (p : Params) (s : State) : Prop :=
  ∀ k : Buffer, Memory.wf (s.buf k) = true ∧ Memory.below (k.size p) (s.buf k) = true

/-- The invariant between steps for parameters `p`. -/
def Consistent (p : Params) (s : State) : Prop := PhaseOk p s ∧ PreInitOk s ∧ BuffersOk p s

/-- The invariant between steps of the machine: R31 with the facts about what has been written. -/
def BlockInv (s : State) : Prop := Consistent Config.params s

/-- LEN of the current frame as a number; 0 while the header bytes are not all written. -/
def lenOf (s : State) : Nat :=
  match headerBytes s with
  | some hb => (viewLen hb).toNat
  | none => 0

/-- Two states that agree in everything but stale buffer bytes: every register, the port, the commands and the events are the
same, and so is every buffer byte that has been counted in the current frame (R36). -/
def SameLive (s t : State) : Prop :=
  t = { s with hbuf := t.hbuf, pbuf := t.pbuf, pcrcRx := t.pcrcRx }
    ∧ (∀ a, a < s.hcount → Memory.read t.hbuf a = Memory.read s.hbuf a)
    ∧ (∀ a, a < s.pcount → a < lenOf s → Memory.read t.pbuf a = Memory.read s.pbuf a)
    ∧ (∀ a, lenOf s + a < s.pcount → Memory.read t.pcrcRx a = Memory.read s.pcrcRx a)

/-! ### Places in a frame, in which the statements are phrased -/

/-- The block sits in SeekStart looking for SM_LO, as after INIT, RESET and every end of frame (41_parser.md R124, R146). -/
def AtFrameStart (s : State) : Prop :=
  s.initialized = true ∧ s.pstate = .seekStart ∧ s.seekMatched = false

/-- The next byte is the 19th of the header phase, and `bs` are the 18 before it (41_parser.md R128, R129). -/
def AtHeaderEnd (s : State) (bs : List Byte) : Prop :=
  s.initialized = true ∧ s.pstate = .readingHeader ∧ s.hcount = 18 ∧ Memory.slice s.hbuf 0 18 = some bs

/-- The block is in ReadingPayload and `hb` are the header bytes of the frame (41_parser.md R134). -/
def InPayload (s : State) (hb : List Byte) : Prop :=
  s.initialized = true ∧ s.pstate = .readingPayload ∧ headerBytes s = some hb

/-- The next byte is the second payload-checksum byte: `payload` are the LEN payload bytes and `lo` is the first checksum byte
(41_parser.md R137). -/
def AtPayloadEnd (s : State) (hb payload : List Byte) (lo : Byte) : Prop :=
  InPayload s hb ∧ s.pcount = (viewLen hb).toNat + 1
    ∧ Memory.slice s.pbuf 0 (viewLen hb).toNat = some payload ∧ Memory.read s.pcrcRx 0 = some lo

/-- The state after an end of frame that emits `es`: the parse state as after ResetParse and the timestamp of the PUSH
(70_reset_and_hazards.md R213). -/
def State.frameEnded (s : State) (es : List Event) : State :=
  { s with
    lastProgress := s.now
    pstate := .seekStart
    seekMatched := false
    hcount := 0
    pcount := 0
    events := s.events ++ es }

/-- The commands `cs` are PUSHes of the bytes `bs`, in order, with any side inputs (30_encoding.md R84; 41_parser.md R142). -/
def PushesOf (cs : List Command) (bs : List Byte) : Prop :=
  cs.map Command.word = bs.map fun b => encode (.push b)

end Sys2Proof.Machine
end

