-- ==== Sys2Proof/Certificates/Slice0/Obligations.lean ====
section
/-! DEFINITION. The statements for the provers. Each names the rule of spec/ it formalises. `hb` stands for the 19 bytes of HBUF,
`s.now` and `s.cfgLocalId` for the side inputs sampled with the command. Where a parameter is OPEN in the spec (START_MARKER,
MAX_FRAG) a statement holds for every value of it. -/

open Sys2Proof Sys2Proof.Machine

/-! ### The command port: decoding, the step -/

/-- 41_parser.md R120: the step takes the next command, decodes its word, and performs it, or refuses a reserved word. -/
def Obligations.StepPerformsDecodedCommand : Prop :=
  ∀ (s : State) (c : Command) (rest : List Command), s.commands = c :: rest →
    (∀ i, decode c.word = .command i →
      step s = exec i { s with now := c.now, cfgLocalId := c.cfgLocalId, commands := rest })
    ∧ (decode c.word = .reserved → step s = .refused .reserved)

/-- With no command waiting, a step changes nothing and emits nothing. The model's reading of 60_exceptions.md section 9 and
70_reset_and_hazards.md section 5 (log entry 2). -/
def Obligations.StepWithoutCommandChangesNothing : Prop :=
  ∀ s : State, s.commands = [] → step s = .next s

/-- A command word placed at the port is the one the next step performs (log entry 1). -/
def Obligations.PlacedCommandWordIsPerformedNext : Prop :=
  ∀ (s : State) (nbits w : Nat) (i : Instr), decodeTableWord nbits w = some i →
    step (s.withFetchWord nbits w) = exec i s

/-- 30_encoding.md R71: the four command codes. -/
def Obligations.CommandCodesDecode : Prop :=
  decode (0b00#2 ++ 0#8) = .command .nop
  ∧ (∀ d : Byte, decode (0b01#2 ++ d) = .command (.push d))
  ∧ decode (0b10#2 ++ 0#8) = .command .reset
  ∧ decode (0b11#2 ++ 0#8) = .command .init

/-- The worked command words of 30_encoding.md section 1, written out as the spec gives them. -/
def Obligations.WorkedCommandWordsDecode : Prop :=
  decode 0x1AA#10 = .command (.push 0xAA#8) ∧ decode 0x100#10 = .command (.push 0x00#8)
  ∧ decode 0x1FF#10 = .command (.push 0xFF#8) ∧ decode 0x000#10 = .command .nop
  ∧ decode 0x200#10 = .command .reset ∧ decode 0x300#10 = .command .init ∧ decode 0x201#10 = .reserved

/-- 30_encoding.md R72: a word whose code is not PUSH and whose `din` is not 0 is reserved and refused; there are 765 of them,
and the other 259 are 256 PUSH words, one NOP, one RESET and one INIT. -/
def Obligations.ReservedWordsAreRefused : Prop :=
  (∀ w : CmdWord, decode w = .reserved ↔ (w.extractLsb' 8 2 ≠ 0b01#2 ∧ w.extractLsb' 0 8 ≠ 0#8))
  ∧ (∀ (s : State) (c : Command) (rest : List Command), s.commands = c :: rest →
      c.word.extractLsb' 8 2 ≠ 0b01#2 → c.word.extractLsb' 0 8 ≠ 0#8 → step s = .refused .reserved)
  ∧ ((List.range 1024).filter fun n => decide (decode (BitVec.ofNat 10 n) = .reserved)).length = 765
  ∧ ((List.range 1024).filter fun n =>
      decide (decode (BitVec.ofNat 10 n) = .command (.push (BitVec.ofNat 8 n)))).length = 256
  ∧ ((List.range 1024).filter fun n => decide (decode (BitVec.ofNat 10 n) = .command .nop)).length = 1
  ∧ ((List.range 1024).filter fun n => decide (decode (BitVec.ofNat 10 n) = .command .reset)).length = 1
  ∧ ((List.range 1024).filter fun n => decide (decode (BitVec.ofNat 10 n) = .command .init)).length = 1

/-- Encoding and decoding of command words agree both ways (30_encoding.md section 1). -/
def Obligations.CommandWordsRoundTrip : Prop :=
  (∀ i : Instr, decode (encode i) = .command i)
  ∧ ∀ (w : CmdWord) (i : Instr), decode w = .command i → encode i = w

/-! ### NOP, INIT, RESET, refusals -/

/-- 41_parser.md R121: NOP changes nothing, in every state. -/
def Obligations.NopChangesNothing : Prop :=
  ∀ s : State, exec .nop s = .next s

/-- 41_parser.md R122 and 70_reset_and_hazards.md R211: INIT loads LOCAL_ID, sets INITIALIZED, resets the parse, stamps
LAST_PROGRESS, and changes nothing else; it is accepted in every state. A second INIT with the same identifier changes only
LAST_PROGRESS. INIT is the only way to change LOCAL_ID. -/
def Obligations.InitInstallsIdentifierAndClearsParse : Prop :=
  (∀ s : State, exec .init s = .next
    { s with
      localId := s.cfgLocalId
      initialized := true
      pstate := .seekStart
      seekMatched := false
      hcount := 0
      pcount := 0
      lastProgress := s.now })
  ∧ (∀ (s t : State) (later : Time), exec .init s = .next t →
      exec .init { t with now := later } = .next { t with now := later, lastProgress := later })
  ∧ ∀ (i : Instr) (s t : State), exec i s = .next t → i ≠ .init → t.localId = s.localId

/-- 70_reset_and_hazards.md R212: from any initialised state RESET leaves the parse state reset and LAST_PROGRESS = now, and
everything else as it was. -/
def Obligations.ResetClearsParse : Prop :=
  ∀ s : State, s.initialized = true → exec .reset s = .next
    { s with
      pstate := .seekStart
      seekMatched := false
      hcount := 0
      pcount := 0
      lastProgress := s.now }

/-- RESET on a parser already reset changes only LAST_PROGRESS (20_memory.md section 3). -/
def Obligations.RepeatedResetChangesOnlyLastProgress : Prop :=
  ∀ (s t : State) (later : Time), exec .reset s = .next t →
    exec .reset { t with now := later } = .next { t with now := later, lastProgress := later }

/-- 60_exceptions.md R187: a command is refused in exactly two cases, and a refusal ends the run for good. -/
def Obligations.RefusalsAreReservedOrBeforeInit : Prop :=
  ∀ (s : State) (c : Command) (rest : List Command), s.commands = c :: rest →
    ∀ r : Refusal,
      (step s = .refused r ↔
        (decode c.word = .reserved ∧ r = .reserved)
        ∨ (s.initialized = false ∧ r = .notInit
            ∧ (decode c.word = .command .reset ∨ ∃ b, decode c.word = .command (.push b))))
      ∧ (step s = .refused r → ∀ n, Host.Core.run Sys2Proof.core (n + 1) s = .refused r)

/-! ### PUSH in SeekStart -/

/-- 41_parser.md R126: SeekLow. -/
def Obligations.SeekLowLooksForFirstMarkerByte : Prop :=
  ∀ (s : State) (b : Byte), s.initialized = true → s.pstate = .seekStart → s.seekMatched = false →
    exec (.push b) s = .next { s with lastProgress := s.now, seekMatched := b == smLo Config.params }

/-- 41_parser.md R127: SeekHigh, for both values of SEEK_RECHECK, and as the machine runs it (SEEK_RECHECK = true). -/
def Obligations.SeekHighLooksForSecondMarkerByte : Prop :=
  (∀ (p : Params) (s : State) (b : Byte), s.initialized = true → s.pstate = .seekStart → s.seekMatched = true →
    pushWith p b s = .next
      (if b = smHi p then
        { s with lastProgress := s.now, pstate := .readingHeader, hcount := 0, seekMatched := false }
      else if p.seekRecheck = true ∧ b = smLo p then { s with lastProgress := s.now, seekMatched := true }
      else { s with lastProgress := s.now, seekMatched := false }))
  ∧ ∀ (s : State) (b : Byte), s.initialized = true → s.pstate = .seekStart → s.seekMatched = true →
    exec (.push b) s = .next
      (if b = smHi Config.params then
        { s with lastProgress := s.now, pstate := .readingHeader, hcount := 0, seekMatched := false }
      else if b = smLo Config.params then { s with lastProgress := s.now, seekMatched := true }
      else { s with lastProgress := s.now, seekMatched := false })

/-! ### PUSH in ReadingHeader -/

/-- 41_parser.md R128: the byte is stored at HCOUNT and counted; at the 19th, HeaderComplete is evaluated on the 19 bytes. -/
def Obligations.HeaderByteIsStoredAndCounted : Prop :=
  ∀ (s : State) (b : Byte), s.initialized = true → s.pstate = .readingHeader →
    (s.hcount < 18 → exec (.push b) s = .next
      { s with lastProgress := s.now, hbuf := Memory.write s.hbuf s.hcount b, hcount := s.hcount + 1 })
    ∧ (s.hcount = 18 → ∀ bs, Memory.slice s.hbuf 0 18 = some bs → exec (.push b) s = .next
        (headerComplete Config.params (bs ++ [b])
          { s with lastProgress := s.now, hbuf := Memory.write s.hbuf 18 b, hcount := 19 }))

/-- 41_parser.md R129: the checks at header completion run in their fixed order and the first that applies decides. CLASS,
MTYPE, TOTAL, ACKREQ and SEQ are not looked at; the destination comparison is exact. -/
def Obligations.HeaderChecksRunInOrder : Prop :=
  ∀ (s : State) (bs : List Byte) (b : Byte), AtHeaderEnd s bs →
    let hb := bs ++ [b]
    let u : State := { s with lastProgress := s.now, hbuf := Memory.write s.hbuf 18 b, hcount := 19 }
    exec (.push b) s = .next
      (if headerCheck Config.params hb = false then headerCrcError Config.params hb u
      else if viewDst hb ≠ s.localId then destinationDrop u
      else if Config.maxFrag < (viewLen hb).toNat then lengthError hb u
      else if (viewLen hb).toNat = 0 then dispatchEmpty hb u
      else { u with pstate := .readingPayload, pcount := 0 })

/-- 41_parser.md R130: a header checksum mismatch is logged, nothing is NACKed, and the parser resynchronises. -/
def Obligations.HeaderCrcMismatchIsLogged : Prop :=
  ∀ (s : State) (bs : List Byte) (b : Byte), AtHeaderEnd s bs →
    let hb := bs ++ [b]
    let computed := crc16 ([smLo Config.params, smHi Config.params] ++ hb.take 17)
    computed ≠ viewHcrc hb →
    exec (.push b) s = .next
      (State.frameEnded { s with hbuf := Memory.write s.hbuf 18 b } [.logHdrCrc computed (viewHcrc hb)])

/-- 41_parser.md R131: a valid header addressed to another node is dropped without an event, whatever its length. -/
def Obligations.ForeignHeaderIsDroppedSilently : Prop :=
  ∀ (s : State) (bs : List Byte) (b : Byte), AtHeaderEnd s bs →
    let hb := bs ++ [b]
    headerCheck Config.params hb = true → viewDst hb ≠ s.localId →
    exec (.push b) s = .next (State.frameEnded { s with hbuf := Memory.write s.hbuf 18 b } [])

/-- 41_parser.md R132: a valid, addressed header with LEN > MAX_FRAG gives LOG_LEN alone. Stated for every value of the
parameters, and for the machine's own (whose MAX_FRAG may be 65535, and then no LEN exceeds it). -/
def Obligations.OverlongHeaderGivesLogLen : Prop :=
  (∀ (p : Params) (s : State) (bs : List Byte) (b : Byte), AtHeaderEnd s bs →
    let hb := bs ++ [b]
    headerCheck p hb = true → viewDst hb = s.localId → p.maxFrag < (viewLen hb).toNat →
    pushWith p b s = .next
      (State.frameEnded { s with hbuf := Memory.write s.hbuf 18 b } [.logLen (viewLen hb)]))
  ∧ ∀ (s : State) (bs : List Byte) (b : Byte), AtHeaderEnd s bs →
    let hb := bs ++ [b]
    headerCheck Config.params hb = true → viewDst hb = s.localId → Config.maxFrag < (viewLen hb).toNat →
    exec (.push b) s = .next
      (State.frameEnded { s with hbuf := Memory.write s.hbuf 18 b } [.logLen (viewLen hb)])

/-- 41_parser.md R133: a valid, addressed header with LEN = 0 is dispatched at once with an empty payload. -/
def Obligations.EmptyFrameIsDispatchedAtOnce : Prop :=
  ∀ (s : State) (bs : List Byte) (b : Byte), AtHeaderEnd s bs →
    let hb := bs ++ [b]
    headerCheck Config.params hb = true → viewDst hb = s.localId → viewLen hb = 0#16 →
    exec (.push b) s = .next
      (State.frameEnded { s with hbuf := Memory.write s.hbuf 18 b } [.frameOut (frameRecord hb none [])])

/-- 41_parser.md R134: a valid, addressed header with 1 ≤ LEN ≤ MAX_FRAG enters ReadingPayload; HCOUNT stays 19. -/
def Obligations.AddressedHeaderEntersPayload : Prop :=
  ∀ (s : State) (bs : List Byte) (b : Byte), AtHeaderEnd s bs →
    let hb := bs ++ [b]
    headerCheck Config.params hb = true → viewDst hb = s.localId → 1 ≤ (viewLen hb).toNat →
    (viewLen hb).toNat ≤ Config.maxFrag →
    exec (.push b) s = .next
      { s with
        lastProgress := s.now
        hbuf := Memory.write s.hbuf 18 b
        hcount := 19
        pstate := .readingPayload
        pcount := 0 }

/-! ### PUSH in ReadingPayload -/

/-- 41_parser.md R135: while PCOUNT < LEN (≤ MAX_FRAG) the byte is stored at PCOUNT and counted. -/
def Obligations.PayloadByteIsStoredAndCounted : Prop :=
  ∀ (s : State) (hb : List Byte) (b : Byte), InPayload s hb → s.pcount < (viewLen hb).toNat →
    (viewLen hb).toNat ≤ Config.maxFrag →
    exec (.push b) s = .next
      { s with lastProgress := s.now, pbuf := Memory.write s.pbuf s.pcount b, pcount := s.pcount + 1 }

/-- 41_parser.md R136: at PCOUNT = LEN the byte is the low byte of the payload checksum. -/
def Obligations.ChecksumLowByteIsStored : Prop :=
  ∀ (s : State) (hb : List Byte) (b : Byte), InPayload s hb → s.pcount = (viewLen hb).toNat →
    exec (.push b) s = .next
      { s with lastProgress := s.now, pcrcRx := Memory.write s.pcrcRx 0 b, pcount := (viewLen hb).toNat + 1 }

/-- 41_parser.md R137: at PCOUNT = LEN + 1 the byte is the high byte of the payload checksum and completes the frame: the
payload check selects PayloadAccept or PayloadCrcError. -/
def Obligations.ChecksumHighByteCompletesFrame : Prop :=
  ∀ (s : State) (hb payload : List Byte) (lo b : Byte), AtPayloadEnd s hb payload lo →
    let u : State := { s with
      lastProgress := s.now
      pcrcRx := Memory.write s.pcrcRx 1 b
      pcount := (viewLen hb).toNat + 2 }
    exec (.push b) s = .next
      (if payloadCheck payload [lo, b] = true then payloadAccept hb payload [lo, b] u
      else payloadCrcError hb payload [lo, b] u)

/-- 41_parser.md R138: on a payload checksum match the frame is dispatched with its LEN payload bytes. -/
def Obligations.MatchingPayloadIsDispatched : Prop :=
  ∀ (s : State) (hb payload : List Byte) (lo b : Byte), AtPayloadEnd s hb payload lo →
    crc16 payload = le16 lo b →
    exec (.push b) s = .next
      (State.frameEnded { s with pcrcRx := Memory.write s.pcrcRx 1 b }
        [.frameOut (frameRecord hb (some (le16 lo b)) payload)])

/-- 41_parser.md R139: on a payload checksum mismatch LOG_PAY_CRC and then exactly one NACK_REQ to SRC are emitted. -/
def Obligations.PayloadCrcMismatchIsNacked : Prop :=
  ∀ (s : State) (hb payload : List Byte) (lo b : Byte), AtPayloadEnd s hb payload lo →
    crc16 payload ≠ le16 lo b →
    exec (.push b) s = .next
      (State.frameEnded { s with pcrcRx := Memory.write s.pcrcRx 1 b }
        [.logPayCrc (crc16 payload) (le16 lo b) (viewSrc hb), .nackReq (viewSrc hb)])

/-- 41_parser.md R140: the fields of every frame record handed out, read from HBUF, PBUF and PCRC_RX as they stand after the
completing byte; DST always equals LOCAL_ID. -/
def Obligations.FrameRecordFieldsAreBufferViews : Prop :=
  ∀ (s t : State) (b : Byte) (r : FrameRecord), BlockInv s → exec (.push b) s = .next t →
    t.events = s.events ++ [.frameOut r] →
    ∃ hb, Memory.slice t.hbuf 0 19 = some hb
      ∧ r.header.src = le32 (byteAt hb 0) (byteAt hb 1) (byteAt hb 2) (byteAt hb 3)
      ∧ r.header.dst = le32 (byteAt hb 4) (byteAt hb 5) (byteAt hb 6) (byteAt hb 7)
      ∧ r.header.dst = s.localId
      ∧ r.header.cls = byteAt hb 8 ∧ r.header.mtype = byteAt hb 9
      ∧ r.header.total = le16 (byteAt hb 10) (byteAt hb 11)
      ∧ r.header.ackreq = byteAt hb 12
      ∧ r.header.seq = le16 (byteAt hb 13) (byteAt hb 14)
      ∧ r.len = le16 (byteAt hb 15) (byteAt hb 16)
      ∧ r.hcrc = le16 (byteAt hb 17) (byteAt hb 18)
      ∧ Memory.slice t.pbuf 0 r.len.toNat = some r.payload
      ∧ r.payload.length = r.len.toNat
      ∧ (r.len = 0#16 → r.pcrc = none)
      ∧ (r.len ≠ 0#16 → ∃ lo hi, Memory.read t.pcrcRx 0 = some lo ∧ Memory.read t.pcrcRx 1 = some hi
          ∧ r.pcrc = some (le16 lo hi))

/-! ### Rules over all commands -/

/-- 00_scope.md R14: from a consistent state a step has one of two outcomes, a next state with the step's events appended, or
a refusal, which ends the run; there is no fault and no hold. -/
def Obligations.StepHasExactlyTwoOutcomes : Prop :=
  ∀ s : State, BlockInv s →
    (∃ t es, step s = .next t ∧ t.events = s.events ++ es)
    ∨ (∃ r, step s = .refused r ∧ ∀ n, Host.Core.run Sys2Proof.core (n + 1) s = .refused r)

/-- 41_parser.md R145: every accepted PUSH completes in its own step, for every byte. -/
def Obligations.PushNeverBlocks : Prop :=
  ∀ (s : State) (b : Byte), BlockInv s → s.initialized = true → ∃ t, exec (.push b) s = .next t

/-- 41_parser.md R141: every accepted PUSH, INIT and RESET sets LAST_PROGRESS to its `now`; NOP does not write it. -/
def Obligations.LastProgressIsStampedByAllButNop : Prop :=
  ∀ (i : Instr) (s t : State), exec i s = .next t →
    (i ≠ .nop → t.lastProgress = s.now) ∧ (i = .nop → t.lastProgress = s.lastProgress)

/-- The five event lists a step can emit (60_exceptions.md section 3); emitted events are never changed (20_memory.md section 5). -/
def Obligations.StepEmitsOneOfFiveEventLists : Prop :=
  ∀ (i : Instr) (s t : State), exec i s = .next t →
    ∃ es, t.events = s.events ++ es
      ∧ (es = []
        ∨ (∃ b r, i = .push b ∧ es = [.frameOut r])
        ∨ (∃ b computed received, i = .push b ∧ es = [.logHdrCrc computed received])
        ∨ (∃ b len, i = .push b ∧ es = [.logLen len])
        ∨ (∃ b computed received src, i = .push b ∧ es = [.logPayCrc computed received src, .nackReq src]))

/-- 10_state.md R20: INITIALIZED is false at power-on, INIT sets it, nothing clears it, and PUSH and RESET are refused while it
is false. -/
def Obligations.InitializedRecordsFirstInit : Prop :=
  State.reset.initialized = false
  ∧ (∀ s t : State, exec .init s = .next t → t.initialized = true)
  ∧ (∀ (i : Instr) (s t : State), exec i s = .next t → s.initialized = true → t.initialized = true)
  ∧ (∀ (i : Instr) (s t : State), exec i s = .next t → i ≠ .init → t.initialized = s.initialized)
  ∧ (∀ s : State, s.initialized = false →
      exec .reset s = .refused .notInit ∧ ∀ b, exec (.push b) s = .refused .notInit)

/-- LOCAL_ID changes only through INIT, and a command that changes it leaves no frame in progress (10_state.md section 1,
20_memory.md section 5, 70_reset_and_hazards.md section 3). -/
def Obligations.LocalIdChangesOnlyThroughInit : Prop :=
  ∀ (i : Instr) (s t : State), exec i s = .next t →
    (i ≠ .init → t.localId = s.localId) ∧ (i = .init → t.localId = s.cfgLocalId ∧ AtFrameStart t)

/-- The frame of every command on the buffers and the registers it does not write (the buffer accesses of 20_memory.md section 3;
NOP, INIT, RESET and PUSH of 41_parser.md sections 2 to 5). A header byte is stored at HCOUNT, a payload byte at PCOUNT, a
checksum byte at PCOUNT − LEN, each inside its array; every other byte of the three buffers reads as before. PUSH leaves
LOCAL_ID, INITIALIZED, the port and the waiting commands alone. In a state outside BlockInv the three clauses that a counter is
in range rest on the model's choice that a store outside the array faults (DESIGN CHOICE, log entry 7). -/
def Obligations.BuffersChangeOnlyAtTheCountedByte : Prop :=
  (∀ (i : Instr) (s t : State), exec i s = .next t → (∀ b, i ≠ .push b) →
    t.hbuf = s.hbuf ∧ t.pbuf = s.pbuf ∧ t.pcrcRx = s.pcrcRx)
  ∧ ∀ (s t : State) (b : Byte), exec (.push b) s = .next t →
    (∀ a, Memory.read t.hbuf a =
      if s.pstate = .readingHeader ∧ a = s.hcount then some b else Memory.read s.hbuf a)
    ∧ (∀ a, Memory.read t.pbuf a =
      if s.pstate = .readingPayload ∧ s.pcount < lenOf s ∧ a = s.pcount then some b else Memory.read s.pbuf a)
    ∧ (∀ a, Memory.read t.pcrcRx a =
      if s.pstate = .readingPayload ∧ lenOf s ≤ s.pcount ∧ a = s.pcount - lenOf s then some b
      else Memory.read s.pcrcRx a)
    ∧ (s.pstate = .readingHeader → s.hcount < 19)
    ∧ (s.pstate = .readingPayload → s.pcount < lenOf s → s.pcount < Config.maxFrag)
    ∧ (s.pstate = .readingPayload → lenOf s ≤ s.pcount → s.pcount - lenOf s < 2)
    ∧ t.localId = s.localId ∧ t.initialized = s.initialized ∧ t.now = s.now ∧ t.cfgLocalId = s.cfgLocalId
    ∧ t.commands = s.commands

/-- One command per step, in order, and none is taken twice: a byte consumed is never examined again (41_parser.md section 7,
20_memory.md section 5). -/
def Obligations.StepTakesExactlyOneCommand : Prop :=
  ∀ s t : State, step s = .next t → t.commands = s.commands.tail

/-- How a byte stream is cut into chunks has no effect: a run over `xs` and then `ys` is the run over `xs ++ ys`
(41_parser.md section 7, 20_memory.md section 3). -/
def Obligations.ChunkingHasNoEffect : Prop :=
  ∀ (s t : State) (xs ys : List Command),
    Host.Core.run Sys2Proof.core xs.length { s with commands := xs } = .next t →
    Host.Core.run Sys2Proof.core (xs.length + ys.length) { s with commands := xs ++ ys } =
      Host.Core.run Sys2Proof.core ys.length { t with commands := ys }

/-- After every end of frame the block looks for the next marker, with LOCAL_ID unchanged and the timestamp of the PUSH that
ended the frame (41_parser.md section 7, 70_reset_and_hazards.md section 1). -/
def Obligations.EndOfFrameResynchronises : Prop :=
  ∀ (s t : State) (b : Byte), exec (.push b) s = .next t → s.pstate ≠ .seekStart → t.pstate = .seekStart →
    AtFrameStart t ∧ t.hcount = 0 ∧ t.pcount = 0 ∧ t.lastProgress = s.now ∧ t.localId = s.localId

/-! ### Invariants -/

/-- The power-on state meets the invariant of 10_state.md section 3. -/
def Obligations.PowerOnStateMeetsInvariant : Prop := BlockInv State.reset

/-- The invariant of 10_state.md section 3, with what has been written and the canonical buffers, is kept by every step, for
every command and every side input. -/
def Obligations.StepKeepsInvariant : Prop :=
  ∀ s t : State, BlockInv s → step s = .next t → BlockInv t

/-- Stale buffer bytes are not observable (10_state.md section 5): from a consistent state and any state that differs from it
only in stale bytes, the steps agree in everything but stale bytes, events included, or are both refused. -/
def Obligations.StaleBytesAreUnobservable : Prop :=
  ∀ s s' : State, BlockInv s → SameLive s s' →
    (∀ t, step s = .next t → ∃ t', step s' = .next t' ∧ SameLive t t')
    ∧ ∀ r, step s = .refused r → step s' = .refused r

/-- The values LOCAL_ID and LAST_PROGRESS hold before the first INIT, which this model names (log entries 4 and 5), are not
observable: no command reads them, and INIT overwrites both (10_state.md section 1). -/
def Obligations.PreInitRegisterValuesAreUnobservable : Prop :=
  ∀ (s : State) (x : NodeId) (y : Time), s.initialized = false →
    exec .init { s with localId := x, lastProgress := y } = exec .init s
    ∧ exec .nop { s with localId := x, lastProgress := y } = .next { s with localId := x, lastProgress := y }
    ∧ exec .reset { s with localId := x, lastProgress := y } = .refused .notInit
    ∧ (∀ b, exec (.push b) { s with localId := x, lastProgress := y } = .refused .notInit)
    ∧ readLastProgress { s with localId := x, lastProgress := y } = .fault .unreadableRegister

/-- The model's power-on state (70_reset_and_hazards.md section 1). LOCAL_ID is not read before INIT: every PUSH is refused, and
INIT gives the same state whatever value LOCAL_ID and LAST_PROGRESS hold. That no byte of the buffers has a value, where the spec
says 'unspecified', is the model's choice (DESIGN CHOICE, log entry 6). -/
def Obligations.PowerOnStateIsAsSpecified : Prop :=
  State.reset.initialized = false ∧ State.reset.pstate = .seekStart ∧ State.reset.seekMatched = false
  ∧ State.reset.hcount = 0 ∧ State.reset.pcount = 0
  ∧ readLastProgress State.reset = .fault .unreadableRegister
  ∧ (∀ (k : Buffer) (a : Nat), Memory.read (State.reset.buf k) a = none)
  ∧ (∀ b, exec (.push b) State.reset = .refused .notInit)
  ∧ ∀ (x : NodeId) (y : Time),
      exec .init { State.reset with localId := x, lastProgress := y } = exec .init State.reset

/-! ### Whole frames -/

/-- The frame codec agrees with itself (41_parser.md section 7, Round trip): pushing the bytes of an encoded frame addressed to
this node, with any side inputs, emits exactly one event, at the last byte, the frame with every header field and the payload
as encoded, and leaves the block at the start of the next frame. Holds for every START_MARKER and MAX_FRAG. -/
def Obligations.EncodedFrameIsReceived : Prop :=
  ∀ (s : State) (h : Header) (payload : List Byte) (cs rest : List Command),
    AtFrameStart s → h.dst = s.localId → payload.length ≤ Config.maxFrag → s.commands = cs ++ rest →
    PushesOf cs (encodeFrame Config.params h payload) →
    (∃ u, Host.Core.run Sys2Proof.core (cs.length - 1) s = .next u ∧ u.events = s.events)
    ∧ ∃ t r, Host.Core.run Sys2Proof.core cs.length s = .next t
      ∧ t.events = s.events ++ [.frameOut r]
      ∧ r.header = h ∧ r.payload = payload ∧ r.len.toNat = payload.length
      ∧ AtFrameStart t ∧ t.localId = s.localId ∧ t.commands = rest

/-- Destination filtering (41_parser.md section 7): pushing the marker and the valid header of a frame addressed to another node,
21 bytes, emits no event, and the payload that may follow is scanned from SeekStart. It says nothing of that payload, in which an
embedded frame may be found (70_reset_and_hazards.md section 3); that the rule of the silent foreign frame speaks of these 21
bytes is the model's reading (DEDUCED, log entry 16). -/
def Obligations.ForeignHeaderEmitsNothing : Prop :=
  ∀ (s : State) (h : Header) (len : Half) (cs rest : List Command),
    AtFrameStart s → h.dst ≠ s.localId → s.commands = cs ++ rest →
    PushesOf cs (withChecksum (encodeHeader Config.params h len)) →
    ∃ t, Host.Core.run Sys2Proof.core cs.length s = .next t
      ∧ t.events = s.events ∧ AtFrameStart t ∧ t.localId = s.localId ∧ t.commands = rest

/-- Worked property W-5 of 95_test_vectors.md: a frame whose payload does not match its checksum gives exactly one NACK_REQ, to
its source, after the log, and leaves the block able to take the next frame. -/
def Obligations.CorruptedPayloadIsNackedOnce : Prop :=
  ∀ (s : State) (h : Header) (payload : List Byte) (lo hi : Byte) (cs rest : List Command),
    AtFrameStart s → h.dst = s.localId → 1 ≤ payload.length → payload.length ≤ Config.maxFrag →
    crc16 payload ≠ le16 lo hi → s.commands = cs ++ rest →
    PushesOf cs
      (withChecksum (encodeHeader Config.params h (BitVec.ofNat 16 payload.length)) ++ payload ++ [lo, hi]) →
    ∃ t, Host.Core.run Sys2Proof.core cs.length s = .next t
      ∧ t.events = s.events ++ [.logPayCrc (crc16 payload) (le16 lo hi) h.src, .nackReq h.src]
      ∧ AtFrameStart t ∧ t.localId = s.localId ∧ t.commands = rest

/-! ### The CRC validator and the wire-format functions -/

/-- The worked values of CRC_STEP and CRC16 (40_crc.md, the corner cases and examples of its rules; 95_test_vectors.md section 2.1). -/
def Obligations.CrcWorkedValues : Prop :=
  crcStep 0xFFFF#16 0x00#8 = 0x40BF#16 ∧ crcStep 0xFFFF#16 0xFF#8 = 0x00FF#16
  ∧ crcStep 0xFFFF#16 0x01#8 = 0x807E#16 ∧ crc16 [] = 0xFFFF#16
  ∧ crc16 [0x31#8, 0x32#8, 0x33#8, 0x34#8, 0x35#8, 0x36#8, 0x37#8, 0x38#8, 0x39#8] = 0x4B37#16
  ∧ crc16 [0x41#8, 0x42#8, 0x43#8] = 0x8550#16

/-- The residue property (40_crc.md, its last rule, which the spec marks as general knowledge). -/
def Obligations.CrcResidueIsZero : Prop :=
  ∀ bs : List Byte, crc16 (bs ++ le16Bytes (crc16 bs)) = 0#16

/-- A change confined to one byte, so also every single-bit error, always changes the checksum (40_crc.md, the comparison rule,
general knowledge by the spec's own mark). -/
def Obligations.CrcDetectsOneChangedByte : Prop :=
  ∀ (front back : List Byte) (x y : Byte), x ≠ y → crc16 (front ++ x :: back) ≠ crc16 (front ++ y :: back)

/-- The table form of CRC_STEP computes the same value (40_crc.md, the rule of equivalent forms): the entry of the low byte of
c ^ b is its eight rounds. -/
def Obligations.CrcTableFormIsEquivalent : Prop :=
  ∀ (c : Half) (b : Byte), crcStep c b = (c >>> 8) ^^^ crcBits 8 ((c ^^^ b.setWidth 16) &&& 0x00FF#16)

/-- 30_encoding.md R77: the header checksum of an encoded frame, carried low byte first at offsets 19 and 20, is the CRC16 of
the frame bytes 0..18 and of nothing else. -/
def Obligations.HeaderChecksumCoversMarkerAndHeader : Prop :=
  ∀ (p : Params) (h : Header) (payload : List Byte),
    ((encodeFrame p h payload).take 19).length = 19
    ∧ ((encodeFrame p h payload).drop 19).take 2 = le16Bytes (crc16 ((encodeFrame p h payload).take 19))
    ∧ (encodeFrame p h payload).take 2 = [smLo p, smHi p]

/-- 30_encoding.md R78: the payload checksum covers exactly the payload bytes and is on the wire exactly when there are any. -/
def Obligations.PayloadChecksumPresentIffPayload : Prop :=
  ∀ (p : Params) (h : Header) (payload : List Byte),
    (payload.length > 0 → (encodeFrame p h payload).drop 21 = payload ++ le16Bytes (crc16 payload))
    ∧ (payload.length = 0 → (encodeFrame p h payload).drop 21 = [])

/-- 42_wire_functions.md R170: the exact bytes of an encoded frame and its length. -/
def Obligations.EncodeFrameLayout : Prop :=
  (∀ (p : Params) (h : Header) (payload : List Byte), payload.length ≤ 65535 →
    let hdr := [smLo p, smHi p,
      h.src.extractLsb' 0 8, h.src.extractLsb' 8 8, h.src.extractLsb' 16 8, h.src.extractLsb' 24 8,
      h.dst.extractLsb' 0 8, h.dst.extractLsb' 8 8, h.dst.extractLsb' 16 8, h.dst.extractLsb' 24 8,
      h.cls, h.mtype, h.total.extractLsb' 0 8, h.total.extractLsb' 8 8, h.ackreq,
      h.seq.extractLsb' 0 8, h.seq.extractLsb' 8 8,
      BitVec.ofNat 8 payload.length, BitVec.ofNat 8 (payload.length / 256)]
    encodeFrame p h payload =
      hdr ++ [(crc16 hdr).extractLsb' 0 8, (crc16 hdr).extractLsb' 8 8]
        ++ (if payload = [] then []
          else payload ++ [(crc16 payload).extractLsb' 0 8, (crc16 payload).extractLsb' 8 8])
    ∧ (encodeFrame p h payload).length = (if payload.length = 0 then 21 else 23 + payload.length))
  ∧ encodeFrame { startMarker := 0x55AA#16, maxFrag := 977, seekRecheck := true }
      { src := 1#32, dst := 2#32, cls := 1#8, mtype := 0x10#8, total := 1#16, ackreq := 1#8, seq := 0#16 }
      [0x41#8, 0x42#8, 0x43#8] =
    [0xAA#8, 0x55#8, 0x01#8, 0x00#8, 0x00#8, 0x00#8, 0x02#8, 0x00#8, 0x00#8, 0x00#8, 0x01#8, 0x10#8, 0x01#8, 0x00#8,
      0x01#8, 0x00#8, 0x00#8, 0x03#8, 0x00#8, 0x6B#8, 0x86#8, 0x41#8, 0x42#8, 0x43#8, 0x50#8, 0x85#8]

/-- 42_wire_functions.md R171: FragmentCount is the least count of at least 1 whose fragments hold L bytes; the 16-bit
field carries it up to 65535. -/
def Obligations.FragmentCountIsCeilingAtLeastOne : Prop :=
  (∀ l m : Nat, 1 ≤ m →
    1 ≤ fragmentCount l m ∧ l ≤ fragmentCount l m * m
    ∧ (∀ k, 1 ≤ k → l ≤ k * m → fragmentCount l m ≤ k)
    ∧ fragmentCount 0 m = 1 ∧ fragmentCount m m = 1 ∧ fragmentCount (m + 1) m = 2
    ∧ (fragmentCount l m ≤ 65535 → ∃ total, fragmentTotal l m = some total ∧ total.toNat = fragmentCount l m))
  ∧ fragmentCount 2500 977 = 3

/-- 42_wire_functions.md R172: the slices are the payload cut at multiples of M; every one but the last has M bytes, and
together they are the payload. Fragment `i` carries sequence number `i`. -/
def Obligations.FragmentSlicesCoverPayload : Prop :=
  ∀ (payload : List Byte) (m : Nat), 1 ≤ m →
    let n := fragmentCount payload.length m
    (List.range n).flatMap (fragmentSlice payload m) = payload
    ∧ ((List.range n).map fun i => (fragmentSlice payload m i).length).sum = payload.length
    ∧ (∀ i, i < n → (fragmentSlice payload m i).length = min m (payload.length - i * m))
    ∧ (∀ i, i < n → ∀ k, k < (fragmentSlice payload m i).length →
        (fragmentSlice payload m i)[k]? = payload[i * m + k]?)
    ∧ (∀ i, i + 1 < n → (fragmentSlice payload m i).length = m)
    ∧ (fragmentSlice payload m (n - 1)).length = payload.length - (n - 1) * m
    ∧ (1 ≤ payload.length → 1 ≤ (fragmentSlice payload m (n - 1)).length)
    ∧ (∀ (h hd : Header) (i : Nat), i < n → fragmentHeader h payload.length m i = some hd → hd.seq.toNat = i)

/-! ### The read port and the kernel's guard -/

/-- The read port of LAST_PROGRESS (10_state.md section 5, 93_implementation_defined.md I3): after INIT it gives the register,
before it the read faults. -/
def Obligations.LastProgressReadPort : Prop :=
  ∀ s : State, (s.initialized = true → readLastProgress s = .next s.lastProgress)
    ∧ (s.initialized = false → readLastProgress s = .fault .unreadableRegister)

/-- 60_exceptions.md R192: the stale-session guard issues one RESET @now exactly when the role is not Idle and more than
STALE_LIMIT has passed, modulo 2^32, since the last progress. -/
def Obligations.StaleSessionGuardIssuesReset : Prop :=
  ∀ (k : KernelParams) (role : Role) (now : Time) (s : State), s.initialized = true →
    ∃ cs, guardCommands k role now s = .next cs
      ∧ (role ≠ .idle → k.timeout * (k.maxRetries + 1) < (now - s.lastProgress).toNat →
          ∃ c, cs = [c] ∧ decode c.word = .command .reset ∧ c.now = now)
      ∧ (role = .idle ∨ (now - s.lastProgress).toNat ≤ k.timeout * (k.maxRetries + 1) → cs = [])

/-! ### Power-on, over whole runs -/

/-- 70_reset_and_hazards.md R210: the power-on values, and what has none. The read port of LAST_PROGRESS faults. LOCAL_ID is never
read before INIT: PUSH and RESET are refused, and INIT gives the same state whatever the two registers hold. The buffers are
never read before they are written: whatever bytes `h`, `p` and `c` they hold at power-on, every run over every list of commands
ends in the same events and registers, or in the same refusal. -/
def Obligations.PowerOnContentsAreNeverRead : Prop :=
  State.reset.initialized = false ∧ State.reset.pstate = .seekStart ∧ State.reset.seekMatched = false
  ∧ State.reset.hcount = 0 ∧ State.reset.pcount = 0
  ∧ (∀ x : Time, readLastProgress { State.reset with lastProgress := x } = .fault .unreadableRegister)
  ∧ (∀ (x : NodeId) (y : Time),
      let u : State := { State.reset with localId := x, lastProgress := y }
      exec .init u = exec .init State.reset ∧ exec .reset u = .refused .notInit
        ∧ ∀ b, exec (.push b) u = .refused .notInit)
  ∧ ∀ (h p c : Memory) (cs : List Command) (n : Nat),
      let s : State := { State.reset with commands := cs }
      let s' : State := { s with hbuf := h, pbuf := p, pcrcRx := c }
      (∀ t, Host.Core.run Sys2Proof.core n s = .next t →
        ∃ t', Host.Core.run Sys2Proof.core n s' = .next t' ∧ SameLive t t')
      ∧ (∀ r, Host.Core.run Sys2Proof.core n s = .refused r → Host.Core.run Sys2Proof.core n s' = .refused r)
end

