-- ==== Sys2Proof/Laws/Bytes.lean ====
section
/-! SUPPORT. Byte order: a value's little-endian bytes assemble to the value again, and the bytes of an assembled value are the
bytes it was assembled from (spec 20_memory.md R52). -/

namespace Sys2Proof.Machine

theorem getLsbD_le16 (b0 b1 : Byte) (i : Nat) :
    (le16 b0 b1).getLsbD i = if i < 8 then b0.getLsbD i else b1.getLsbD (i - 8) := by
  simp only [le16, BitVec.getLsbD_or, BitVec.getLsbD_setWidth, BitVec.getLsbD_shiftLeft]
  split
  · simp [show i < 16 by omega, *]
  · by_cases h : i < 16
    · simp [show i - 8 < 16 by omega, BitVec.getLsbD_of_ge b0 i (by omega), *]
    · simp [h, BitVec.getLsbD_of_ge b1 (i - 8) (by omega)]

theorem getLsbD_le32 (b0 b1 b2 b3 : Byte) (i : Nat) :
    (le32 b0 b1 b2 b3).getLsbD i =
      if i < 8 then b0.getLsbD i else if i < 16 then b1.getLsbD (i - 8)
      else if i < 24 then b2.getLsbD (i - 16) else b3.getLsbD (i - 24) := by
  simp only [le32, BitVec.getLsbD_or, BitVec.getLsbD_setWidth, BitVec.getLsbD_shiftLeft]
  by_cases h0 : i < 8
  · simp [h0, show i < 16 by omega, show i < 24 by omega, show i < 32 by omega]
  by_cases h1 : i < 16
  · simp [h0, h1, show i < 24 by omega, show i < 32 by omega, show i - 8 < 32 by omega, BitVec.getLsbD_of_ge b0 i (by omega)]
  by_cases h2 : i < 24
  · simp [h0, h1, h2, show i < 32 by omega, show i - 16 < 32 by omega, BitVec.getLsbD_of_ge b0 i (by omega),
      BitVec.getLsbD_of_ge b1 (i - 8) (by omega)]
  by_cases h3 : i < 32
  · simp [h0, h1, h2, h3, show i - 24 < 32 by omega, BitVec.getLsbD_of_ge b0 i (by omega),
      BitVec.getLsbD_of_ge b1 (i - 8) (by omega), BitVec.getLsbD_of_ge b2 (i - 16) (by omega)]
  · simp [h0, h1, h2, h3, BitVec.getLsbD_of_ge b3 (i - 24) (by omega)]

theorem le16_bytes (v : Half) : le16 (v.extractLsb' 0 8) (v.extractLsb' 8 8) = v := by
  apply BitVec.eq_of_getLsbD_eq
  intro i hi
  rw [getLsbD_le16]
  simp only [BitVec.getLsbD_extractLsb']
  split
  · simp [*]
  · simp [show i - 8 < 8 by omega, show 8 + (i - 8) = i by omega]

theorem le32_bytes (v : BitVec 32) :
    le32 (v.extractLsb' 0 8) (v.extractLsb' 8 8) (v.extractLsb' 16 8) (v.extractLsb' 24 8) = v := by
  apply BitVec.eq_of_getLsbD_eq
  intro i hi
  rw [getLsbD_le32]
  simp only [BitVec.getLsbD_extractLsb']
  split
  · simp [*]
  split
  · simp [show i - 8 < 8 by omega, show 8 + (i - 8) = i by omega]
  split
  · simp [show i - 16 < 8 by omega, show 16 + (i - 16) = i by omega]
  · simp [show i - 24 < 8 by omega, show 24 + (i - 24) = i by omega]

theorem le16_low (b0 b1 : Byte) : (le16 b0 b1).extractLsb' 0 8 = b0 := by
  apply BitVec.eq_of_getLsbD_eq
  intro i hi
  simp [getLsbD_le16, hi]

theorem le16_high (b0 b1 : Byte) : (le16 b0 b1).extractLsb' 8 8 = b1 := by
  apply BitVec.eq_of_getLsbD_eq
  intro i hi
  simp [getLsbD_le16, hi]

@[simp] theorem le16Bytes_length (v : Half) : (le16Bytes v).length = 2 := rfl
@[simp] theorem le32Bytes_length (v : BitVec 32) : (le32Bytes v).length = 4 := rfl

end Sys2Proof.Machine
end

