-- ==== Sys2Proof/Laws/Crc.lean ====
section
/-! SUPPORT. The checksum is linear: a round, and so a run of rounds, distributes over exclusive-or and loses nothing (spec
40_crc.md R100). -/

namespace Sys2Proof.Machine

/-- A round distributes over exclusive-or. -/
theorem crcBit_xor (a b : Half) : crcBit (a ^^^ b) = crcBit a ^^^ crcBit b := by
  unfold crcBit
  rw [BitVec.getLsbD_xor, BitVec.ushiftRight_xor_distrib]
  cases a.getLsbD 0 <;> cases b.getLsbD 0 <;> simp
  · ac_rfl
  · ac_rfl
  · rw [show (a >>> 1 ^^^ 40961#16 ^^^ (b >>> 1 ^^^ 40961#16)) = a >>> 1 ^^^ b >>> 1 ^^^ (40961#16 ^^^ 40961#16) by ac_rfl]
    simp

/-- Rounds distribute over exclusive-or. -/
theorem crcBits_xor (n : Nat) (a b : Half) : crcBits n (a ^^^ b) = crcBits n a ^^^ crcBits n b := by
  induction n generalizing a b with
  | zero => rfl
  | succ n ih => simp only [crcBits, crcBit_xor, ih]

/-- Rounds over bits that are all 0 only shift. -/
theorem crcBits_low (n : Nat) (x : Half) (h : ∀ i, i < n → x.getLsbD i = false) : crcBits n x = x >>> n := by
  induction n generalizing x with
  | zero => simp [crcBits]
  | succ n ih =>
    have h0 := h 0 (by omega)
    rw [crcBits, show crcBit x = x >>> 1 by rw [crcBit, h0]; rfl, ih]
    · rw [← BitVec.shiftRight_add, Nat.add_comm]
    · intro i hi
      rw [BitVec.getLsbD_ushiftRight]; exact h _ (by omega)

/-- A round gives 0 only from 0. -/
theorem crcBit_eq_zero {d : Half} (h : crcBit d = 0#16) : d = 0#16 := by
  unfold crcBit at h
  cases hd : d.getLsbD 0 with
  | true =>
    rw [hd, if_pos rfl] at h
    have := congrArg (fun v => v.getLsbD 15) h
    simp at this
  | false =>
    rw [hd] at h
    apply BitVec.eq_of_getLsbD_eq
    intro i hi
    cases i with
    | zero => rw [hd]; simp
    | succ i =>
      have := congrArg (fun v => v.getLsbD i) h
      simpa [Nat.add_comm] using this

/-- Rounds give 0 only from 0. -/
theorem crcBits_eq_zero {n : Nat} {d : Half} (h : crcBits n d = 0#16) : d = 0#16 := by
  induction n generalizing d with
  | zero => exact h
  | succ n ih => exact crcBit_eq_zero (ih h)

/-- Rounds lose nothing. -/
theorem crcBits_inj {n : Nat} {a b : Half} (h : crcBits n a = crcBits n b) : a = b := by
  have : crcBits n (a ^^^ b) = 0#16 := by rw [crcBits_xor, h, BitVec.xor_self]
  have := crcBits_eq_zero this
  exact BitVec.xor_eq_zero_iff.mp this

/-- The checksum of a concatenation goes on from the checksum of its first part. -/
theorem crc_append (xs ys : List Byte) : crc16 (xs ++ ys) = ys.foldl crcStep (crc16 xs) := by simp [crc16, List.foldl_append]

end Sys2Proof.Machine
end

