-- ==== Sys2Proof/Laws/Memory.lean ====
section
/-! SUPPORT. The laws of the byte buffers: a read after a write, slices, and the canonical form. -/

namespace Sys2Proof.Machine

@[simp] theorem Memory.read_nil (a : Nat) : Memory.read [] a = none := rfl

/-- A read after a write gives the byte written, and every other index reads as before. -/
theorem Memory.read_write (m : Memory) (a b : Nat) (v : Byte) :
    Memory.read (Memory.write m a v) b = if b = a then some v else Memory.read m b := by
  induction m with
  | nil => simp [Memory.write, Memory.read]
  | cons c m ih =>
    obtain ⟨x, w⟩ := c
    simp only [Memory.write]
    split
    · simp [Memory.read]
    · split
      · subst_vars; by_cases h : b = x <;> simp [Memory.read, h]
      · by_cases h : b = x
        · subst h; have : b ≠ a := fun e => by omega
          simp [Memory.read, this]
        · simp [Memory.read, h, ih]

@[simp] theorem Memory.read_write_same (m : Memory) (a : Nat) (v : Byte) :
    Memory.read (Memory.write m a v) a = some v := by simp [Memory.read_write]

theorem Memory.read_write_other (m : Memory) {a b : Nat} (v : Byte) (h : b ≠ a) :
    Memory.read (Memory.write m a v) b = Memory.read m b := by simp [Memory.read_write, h]

/-! ### Slices -/

@[simp] theorem Memory.slice_zero (m : Memory) (a : Nat) : Memory.slice m a 0 = some [] := rfl

/-- A slice is some list exactly when the list has the slice's length and its bytes are the bytes read. -/
theorem Memory.slice_eq_some {m : Memory} {a n : Nat} {bs : List Byte} :
    Memory.slice m a n = some bs ↔
      bs.length = n ∧ ∀ i (h : i < bs.length), Memory.read m (a + i) = some bs[i] := by
  induction n generalizing a bs with
  | zero =>
    constructor
    · intro h
      obtain rfl : [] = bs := by simpa using h
      simp
    · rintro ⟨h, -⟩
      simp [List.length_eq_zero_iff.mp h]
  | succ n ih =>
    constructor
    · intro h
      simp only [Memory.slice] at h
      split at h
      · rename_i b bs' hb hs
        obtain rfl : b :: bs' = bs := by simpa using h
        obtain ⟨hl, hr⟩ := ih.mp hs
        refine ⟨by simp [hl], fun i hi => ?_⟩
        cases i with
        | zero => simpa using hb
        | succ i =>
          have hi' : i < bs'.length := by simpa using hi
          simpa [Nat.add_assoc, Nat.add_comm 1 i] using hr i hi'
      · cases h
    · rintro ⟨hl, hr⟩
      cases bs with
      | nil => simp at hl
      | cons b bs' =>
        have h0 : Memory.read m a = some b := hr 0 (by simp)
        have hs : Memory.slice m (a + 1) n = some bs' :=
          ih.mpr ⟨by simpa using hl, fun i hi => by
            rw [Nat.add_assoc, Nat.add_comm 1 i]; exact hr (i + 1) (by simpa using hi)⟩
        simp [Memory.slice, h0, hs]

theorem Memory.slice_length {m : Memory} {a n : Nat} {bs : List Byte}
    (h : Memory.slice m a n = some bs) : bs.length = n := (Memory.slice_eq_some.mp h).1

/-- A slice depends only on the bytes it reads. -/
theorem Memory.slice_congr {m m' : Memory} {a n : Nat}
    (h : ∀ i, i < n → Memory.read m (a + i) = Memory.read m' (a + i)) :
    Memory.slice m a n = Memory.slice m' a n := by
  induction n generalizing a with
  | zero => rfl
  | succ n ih =>
    have h0 : Memory.read m a = Memory.read m' a := by simpa using h 0 (by omega)
    have hs : Memory.slice m (a + 1) n = Memory.slice m' (a + 1) n :=
      ih fun i hi => by simpa [Nat.add_assoc, Nat.add_comm 1 i] using h (i + 1) (by omega)
    simp [Memory.slice, h0, hs]

/-- A slice one byte longer: the shorter slice, then the next byte. -/
theorem Memory.slice_succ {m : Memory} {a n : Nat} {bs : List Byte} {b : Byte}
    (h : Memory.slice m a n = some bs) (hb : Memory.read m (a + n) = some b) :
    Memory.slice m a (n + 1) = some (bs ++ [b]) := by
  obtain ⟨hl, hr⟩ := Memory.slice_eq_some.mp h
  refine Memory.slice_eq_some.mpr ⟨by simp [hl], fun i hi => ?_⟩
  by_cases hlt : i < bs.length
  · rw [List.getElem_append_left hlt]; exact hr i hlt
  · have hlen : i < (bs ++ [b]).length := hi
    have : i = n := by simp at hlen; omega
    subst this
    simp [← hl] at hb ⊢
    simpa [hl] using hb

/-- Writing the byte just past a slice makes it one byte longer. -/
theorem Memory.slice_write_end {m : Memory} {n : Nat} {bs : List Byte} (b : Byte)
    (h : Memory.slice m 0 n = some bs) :
    Memory.slice (Memory.write m n b) 0 (n + 1) = some (bs ++ [b]) := by
  refine Memory.slice_succ ?_ (by simp)
  rw [← h]
  exact Memory.slice_congr fun i hi => by
    rw [Memory.read_write_other]; omega

/-- Writing past a slice leaves it as it was. -/
theorem Memory.slice_write_past {m : Memory} {n i : Nat} (b : Byte) (h : n ≤ i) :
    Memory.slice (Memory.write m i b) 0 n = Memory.slice m 0 n :=
  Memory.slice_congr fun j hj => by rw [Memory.read_write_other]; omega

/-! ### What has been written -/

/-- The first `n` bytes form a slice exactly when all of them have been written. -/
theorem Memory.written_iff_slice {m : Memory} {n : Nat} :
    Memory.Written m n ↔ ∃ bs, Memory.slice m 0 n = some bs := by
  induction n with
  | zero => simp [Memory.Written]
  | succ n ih =>
    constructor
    · intro h
      obtain ⟨bs, hs⟩ := ih.mp fun a ha => h a (by omega)
      obtain ⟨b, hb⟩ := Option.isSome_iff_exists.mp (h n (by omega))
      exact ⟨bs ++ [b], Memory.slice_succ hs (by simpa using hb)⟩
    · rintro ⟨bs, hs⟩ a ha
      obtain ⟨hl, hr⟩ := Memory.slice_eq_some.mp hs
      simpa using congrArg Option.isSome (hr a (by omega))

theorem Memory.written_zero (m : Memory) : Memory.Written m 0 := by
  intro a ha; omega

theorem Memory.Written.mono {m : Memory} {n k : Nat} (h : Memory.Written m n) (hk : k ≤ n) :
    Memory.Written m k := fun a ha => h a (by omega)

/-- Writing the next byte extends what has been written by one. -/
theorem Memory.Written.write {m : Memory} {n : Nat} (h : Memory.Written m n) (b : Byte) :
    Memory.Written (Memory.write m n b) (n + 1) := by
  intro a ha
  by_cases e : a = n
  · simp [e]
  · rw [Memory.read_write_other m b e]; exact h a (by omega)

/-! ### The canonical form -/

theorem Memory.wf_cons {x : Nat} {v : Byte} {m : Memory} :
    Memory.wf ((x, v) :: m) = true ↔ (∀ c ∈ m, x < c.1) ∧ Memory.wf m = true := by
  induction m generalizing x v with
  | nil => simp [Memory.wf]
  | cons d m ih =>
    obtain ⟨y, w⟩ := d
    simp only [Memory.wf, Bool.and_eq_true, decide_eq_true_eq]
    constructor
    · rintro ⟨hxy, h⟩
      refine ⟨fun c hc => ?_, h⟩
      cases List.mem_cons.mp hc with
      | inl e => subst e; exact hxy
      | inr hm => have := (ih.mp h).1 c hm; omega
    · rintro ⟨hx, h⟩
      exact ⟨hx (y, w) (by simp), h⟩

/-- Where the indexes of a memory after a write come from. -/
theorem Memory.mem_write {m : Memory} {a : Nat} {v : Byte} {c : Host.Cell}
    (h : c ∈ Memory.write m a v) : c = (a, v) ∨ c ∈ m := by
  induction m with
  | nil => simpa [Memory.write] using h
  | cons d m ih =>
    obtain ⟨x, w⟩ := d
    simp only [Memory.write] at h
    split at h
    · simpa using h
    · split at h
      · rcases List.mem_cons.mp h with e | e
        · exact .inl e
        · exact .inr (List.mem_cons_of_mem _ e)
      · rcases List.mem_cons.mp h with e | e
        · exact .inr (by simp [e])
        · rcases ih e with e | e
          · exact .inl e
          · exact .inr (List.mem_cons_of_mem _ e)

/-- A write keeps the canonical form. -/
theorem Memory.write_wf {m : Memory} (a : Nat) (v : Byte) (h : Memory.wf m = true) :
    Memory.wf (Memory.write m a v) = true := by
  induction m with
  | nil => rfl
  | cons d m ih =>
    obtain ⟨x, w⟩ := d
    obtain ⟨hx, hm⟩ := Memory.wf_cons.mp h
    simp only [Memory.write]
    split
    · refine Memory.wf_cons.mpr ⟨fun c hc => ?_, h⟩
      rcases List.mem_cons.mp hc with e | e
      · subst e; assumption
      · have := hx c e; omega
    · split
      · subst_vars; exact Memory.wf_cons.mpr ⟨hx, hm⟩
      · refine Memory.wf_cons.mpr ⟨fun c hc => ?_, ih hm⟩
        rcases Memory.mem_write hc with e | e
        · subst e; simp; omega
        · exact hx c e

/-- A write inside the array keeps the memory inside the array. -/
theorem Memory.write_below {m : Memory} {n a : Nat} (v : Byte) (ha : a < n)
    (h : Memory.below n m = true) : Memory.below n (Memory.write m a v) = true := by
  simp only [Memory.below, List.all_eq_true, decide_eq_true_eq] at h ⊢
  intro c hc
  rcases Memory.mem_write hc with e | e
  · subst e; exact ha
  · exact h c e

end Sys2Proof.Machine
end

