-- ==== Sys2Proof/Laws/State.lean ====
section
/-! SUPPORT. What each named update of State (Machine/Ops.lean) does to each field: one lemma per field per update. -/

namespace Sys2Proof.Machine

/-! ### State.touch -/

@[simp] theorem State.touch_initialized (s : State) : s.touch.initialized = s.initialized := rfl
@[simp] theorem State.touch_localId (s : State) : s.touch.localId = s.localId := rfl
@[simp] theorem State.touch_pstate (s : State) : s.touch.pstate = s.pstate := rfl
@[simp] theorem State.touch_seekMatched (s : State) : s.touch.seekMatched = s.seekMatched := rfl
@[simp] theorem State.touch_hbuf (s : State) : s.touch.hbuf = s.hbuf := rfl
@[simp] theorem State.touch_hcount (s : State) : s.touch.hcount = s.hcount := rfl
@[simp] theorem State.touch_pbuf (s : State) : s.touch.pbuf = s.pbuf := rfl
@[simp] theorem State.touch_pcount (s : State) : s.touch.pcount = s.pcount := rfl
@[simp] theorem State.touch_pcrcRx (s : State) : s.touch.pcrcRx = s.pcrcRx := rfl
@[simp] theorem State.touch_lastProgress (s : State) : s.touch.lastProgress = s.now := rfl
@[simp] theorem State.touch_now (s : State) : s.touch.now = s.now := rfl
@[simp] theorem State.touch_cfgLocalId (s : State) : s.touch.cfgLocalId = s.cfgLocalId := rfl
@[simp] theorem State.touch_commands (s : State) : s.touch.commands = s.commands := rfl
@[simp] theorem State.touch_events (s : State) : s.touch.events = s.events := rfl

/-! ### State.resetParse -/

@[simp] theorem State.resetParse_initialized (s : State) : s.resetParse.initialized = s.initialized := rfl
@[simp] theorem State.resetParse_localId (s : State) : s.resetParse.localId = s.localId := rfl
@[simp] theorem State.resetParse_pstate (s : State) : s.resetParse.pstate = .seekStart := rfl
@[simp] theorem State.resetParse_seekMatched (s : State) : s.resetParse.seekMatched = false := rfl
@[simp] theorem State.resetParse_hbuf (s : State) : s.resetParse.hbuf = s.hbuf := rfl
@[simp] theorem State.resetParse_hcount (s : State) : s.resetParse.hcount = 0 := rfl
@[simp] theorem State.resetParse_pbuf (s : State) : s.resetParse.pbuf = s.pbuf := rfl
@[simp] theorem State.resetParse_pcount (s : State) : s.resetParse.pcount = 0 := rfl
@[simp] theorem State.resetParse_pcrcRx (s : State) : s.resetParse.pcrcRx = s.pcrcRx := rfl
@[simp] theorem State.resetParse_lastProgress (s : State) : s.resetParse.lastProgress = s.lastProgress := rfl
@[simp] theorem State.resetParse_now (s : State) : s.resetParse.now = s.now := rfl
@[simp] theorem State.resetParse_cfgLocalId (s : State) : s.resetParse.cfgLocalId = s.cfgLocalId := rfl
@[simp] theorem State.resetParse_commands (s : State) : s.resetParse.commands = s.commands := rfl
@[simp] theorem State.resetParse_events (s : State) : s.resetParse.events = s.events := rfl

/-! ### State.configure -/

@[simp] theorem State.configure_initialized (s : State) : s.configure.initialized = true := rfl
@[simp] theorem State.configure_localId (s : State) : s.configure.localId = s.cfgLocalId := rfl
@[simp] theorem State.configure_pstate (s : State) : s.configure.pstate = s.pstate := rfl
@[simp] theorem State.configure_seekMatched (s : State) : s.configure.seekMatched = s.seekMatched := rfl
@[simp] theorem State.configure_hbuf (s : State) : s.configure.hbuf = s.hbuf := rfl
@[simp] theorem State.configure_hcount (s : State) : s.configure.hcount = s.hcount := rfl
@[simp] theorem State.configure_pbuf (s : State) : s.configure.pbuf = s.pbuf := rfl
@[simp] theorem State.configure_pcount (s : State) : s.configure.pcount = s.pcount := rfl
@[simp] theorem State.configure_pcrcRx (s : State) : s.configure.pcrcRx = s.pcrcRx := rfl
@[simp] theorem State.configure_lastProgress (s : State) : s.configure.lastProgress = s.lastProgress := rfl
@[simp] theorem State.configure_now (s : State) : s.configure.now = s.now := rfl
@[simp] theorem State.configure_cfgLocalId (s : State) : s.configure.cfgLocalId = s.cfgLocalId := rfl
@[simp] theorem State.configure_commands (s : State) : s.configure.commands = s.commands := rfl
@[simp] theorem State.configure_events (s : State) : s.configure.events = s.events := rfl

/-! ### State.setMatched -/

@[simp] theorem State.setMatched_initialized (s : State) (m : Bool) : (s.setMatched m).initialized = s.initialized := rfl
@[simp] theorem State.setMatched_localId (s : State) (m : Bool) : (s.setMatched m).localId = s.localId := rfl
@[simp] theorem State.setMatched_pstate (s : State) (m : Bool) : (s.setMatched m).pstate = s.pstate := rfl
@[simp] theorem State.setMatched_seekMatched (s : State) (m : Bool) : (s.setMatched m).seekMatched = m := rfl
@[simp] theorem State.setMatched_hbuf (s : State) (m : Bool) : (s.setMatched m).hbuf = s.hbuf := rfl
@[simp] theorem State.setMatched_hcount (s : State) (m : Bool) : (s.setMatched m).hcount = s.hcount := rfl
@[simp] theorem State.setMatched_pbuf (s : State) (m : Bool) : (s.setMatched m).pbuf = s.pbuf := rfl
@[simp] theorem State.setMatched_pcount (s : State) (m : Bool) : (s.setMatched m).pcount = s.pcount := rfl
@[simp] theorem State.setMatched_pcrcRx (s : State) (m : Bool) : (s.setMatched m).pcrcRx = s.pcrcRx := rfl
@[simp] theorem State.setMatched_lastProgress (s : State) (m : Bool) : (s.setMatched m).lastProgress = s.lastProgress := rfl
@[simp] theorem State.setMatched_now (s : State) (m : Bool) : (s.setMatched m).now = s.now := rfl
@[simp] theorem State.setMatched_cfgLocalId (s : State) (m : Bool) : (s.setMatched m).cfgLocalId = s.cfgLocalId := rfl
@[simp] theorem State.setMatched_commands (s : State) (m : Bool) : (s.setMatched m).commands = s.commands := rfl
@[simp] theorem State.setMatched_events (s : State) (m : Bool) : (s.setMatched m).events = s.events := rfl

/-! ### State.enterHeader -/

@[simp] theorem State.enterHeader_initialized (s : State) : s.enterHeader.initialized = s.initialized := rfl
@[simp] theorem State.enterHeader_localId (s : State) : s.enterHeader.localId = s.localId := rfl
@[simp] theorem State.enterHeader_pstate (s : State) : s.enterHeader.pstate = .readingHeader := rfl
@[simp] theorem State.enterHeader_seekMatched (s : State) : s.enterHeader.seekMatched = false := rfl
@[simp] theorem State.enterHeader_hbuf (s : State) : s.enterHeader.hbuf = s.hbuf := rfl
@[simp] theorem State.enterHeader_hcount (s : State) : s.enterHeader.hcount = 0 := rfl
@[simp] theorem State.enterHeader_pbuf (s : State) : s.enterHeader.pbuf = s.pbuf := rfl
@[simp] theorem State.enterHeader_pcount (s : State) : s.enterHeader.pcount = s.pcount := rfl
@[simp] theorem State.enterHeader_pcrcRx (s : State) : s.enterHeader.pcrcRx = s.pcrcRx := rfl
@[simp] theorem State.enterHeader_lastProgress (s : State) : s.enterHeader.lastProgress = s.lastProgress := rfl
@[simp] theorem State.enterHeader_now (s : State) : s.enterHeader.now = s.now := rfl
@[simp] theorem State.enterHeader_cfgLocalId (s : State) : s.enterHeader.cfgLocalId = s.cfgLocalId := rfl
@[simp] theorem State.enterHeader_commands (s : State) : s.enterHeader.commands = s.commands := rfl
@[simp] theorem State.enterHeader_events (s : State) : s.enterHeader.events = s.events := rfl

/-! ### State.enterPayload -/

@[simp] theorem State.enterPayload_initialized (s : State) : s.enterPayload.initialized = s.initialized := rfl
@[simp] theorem State.enterPayload_localId (s : State) : s.enterPayload.localId = s.localId := rfl
@[simp] theorem State.enterPayload_pstate (s : State) : s.enterPayload.pstate = .readingPayload := rfl
@[simp] theorem State.enterPayload_seekMatched (s : State) : s.enterPayload.seekMatched = s.seekMatched := rfl
@[simp] theorem State.enterPayload_hbuf (s : State) : s.enterPayload.hbuf = s.hbuf := rfl
@[simp] theorem State.enterPayload_hcount (s : State) : s.enterPayload.hcount = s.hcount := rfl
@[simp] theorem State.enterPayload_pbuf (s : State) : s.enterPayload.pbuf = s.pbuf := rfl
@[simp] theorem State.enterPayload_pcount (s : State) : s.enterPayload.pcount = 0 := rfl
@[simp] theorem State.enterPayload_pcrcRx (s : State) : s.enterPayload.pcrcRx = s.pcrcRx := rfl
@[simp] theorem State.enterPayload_lastProgress (s : State) : s.enterPayload.lastProgress = s.lastProgress := rfl
@[simp] theorem State.enterPayload_now (s : State) : s.enterPayload.now = s.now := rfl
@[simp] theorem State.enterPayload_cfgLocalId (s : State) : s.enterPayload.cfgLocalId = s.cfgLocalId := rfl
@[simp] theorem State.enterPayload_commands (s : State) : s.enterPayload.commands = s.commands := rfl
@[simp] theorem State.enterPayload_events (s : State) : s.enterPayload.events = s.events := rfl

/-! ### State.setHcount -/

@[simp] theorem State.setHcount_initialized (s : State) (n : Nat) : (s.setHcount n).initialized = s.initialized := rfl
@[simp] theorem State.setHcount_localId (s : State) (n : Nat) : (s.setHcount n).localId = s.localId := rfl
@[simp] theorem State.setHcount_pstate (s : State) (n : Nat) : (s.setHcount n).pstate = s.pstate := rfl
@[simp] theorem State.setHcount_seekMatched (s : State) (n : Nat) : (s.setHcount n).seekMatched = s.seekMatched := rfl
@[simp] theorem State.setHcount_hbuf (s : State) (n : Nat) : (s.setHcount n).hbuf = s.hbuf := rfl
@[simp] theorem State.setHcount_hcount (s : State) (n : Nat) : (s.setHcount n).hcount = n := rfl
@[simp] theorem State.setHcount_pbuf (s : State) (n : Nat) : (s.setHcount n).pbuf = s.pbuf := rfl
@[simp] theorem State.setHcount_pcount (s : State) (n : Nat) : (s.setHcount n).pcount = s.pcount := rfl
@[simp] theorem State.setHcount_pcrcRx (s : State) (n : Nat) : (s.setHcount n).pcrcRx = s.pcrcRx := rfl
@[simp] theorem State.setHcount_lastProgress (s : State) (n : Nat) : (s.setHcount n).lastProgress = s.lastProgress := rfl
@[simp] theorem State.setHcount_now (s : State) (n : Nat) : (s.setHcount n).now = s.now := rfl
@[simp] theorem State.setHcount_cfgLocalId (s : State) (n : Nat) : (s.setHcount n).cfgLocalId = s.cfgLocalId := rfl
@[simp] theorem State.setHcount_commands (s : State) (n : Nat) : (s.setHcount n).commands = s.commands := rfl
@[simp] theorem State.setHcount_events (s : State) (n : Nat) : (s.setHcount n).events = s.events := rfl

/-! ### State.setPcount -/

@[simp] theorem State.setPcount_initialized (s : State) (n : Nat) : (s.setPcount n).initialized = s.initialized := rfl
@[simp] theorem State.setPcount_localId (s : State) (n : Nat) : (s.setPcount n).localId = s.localId := rfl
@[simp] theorem State.setPcount_pstate (s : State) (n : Nat) : (s.setPcount n).pstate = s.pstate := rfl
@[simp] theorem State.setPcount_seekMatched (s : State) (n : Nat) : (s.setPcount n).seekMatched = s.seekMatched := rfl
@[simp] theorem State.setPcount_hbuf (s : State) (n : Nat) : (s.setPcount n).hbuf = s.hbuf := rfl
@[simp] theorem State.setPcount_hcount (s : State) (n : Nat) : (s.setPcount n).hcount = s.hcount := rfl
@[simp] theorem State.setPcount_pbuf (s : State) (n : Nat) : (s.setPcount n).pbuf = s.pbuf := rfl
@[simp] theorem State.setPcount_pcount (s : State) (n : Nat) : (s.setPcount n).pcount = n := rfl
@[simp] theorem State.setPcount_pcrcRx (s : State) (n : Nat) : (s.setPcount n).pcrcRx = s.pcrcRx := rfl
@[simp] theorem State.setPcount_lastProgress (s : State) (n : Nat) : (s.setPcount n).lastProgress = s.lastProgress := rfl
@[simp] theorem State.setPcount_now (s : State) (n : Nat) : (s.setPcount n).now = s.now := rfl
@[simp] theorem State.setPcount_cfgLocalId (s : State) (n : Nat) : (s.setPcount n).cfgLocalId = s.cfgLocalId := rfl
@[simp] theorem State.setPcount_commands (s : State) (n : Nat) : (s.setPcount n).commands = s.commands := rfl
@[simp] theorem State.setPcount_events (s : State) (n : Nat) : (s.setPcount n).events = s.events := rfl

/-! ### State.emit -/

@[simp] theorem State.emit_initialized (s : State) (es : List Event) : (s.emit es).initialized = s.initialized := rfl
@[simp] theorem State.emit_localId (s : State) (es : List Event) : (s.emit es).localId = s.localId := rfl
@[simp] theorem State.emit_pstate (s : State) (es : List Event) : (s.emit es).pstate = s.pstate := rfl
@[simp] theorem State.emit_seekMatched (s : State) (es : List Event) : (s.emit es).seekMatched = s.seekMatched := rfl
@[simp] theorem State.emit_hbuf (s : State) (es : List Event) : (s.emit es).hbuf = s.hbuf := rfl
@[simp] theorem State.emit_hcount (s : State) (es : List Event) : (s.emit es).hcount = s.hcount := rfl
@[simp] theorem State.emit_pbuf (s : State) (es : List Event) : (s.emit es).pbuf = s.pbuf := rfl
@[simp] theorem State.emit_pcount (s : State) (es : List Event) : (s.emit es).pcount = s.pcount := rfl
@[simp] theorem State.emit_pcrcRx (s : State) (es : List Event) : (s.emit es).pcrcRx = s.pcrcRx := rfl
@[simp] theorem State.emit_lastProgress (s : State) (es : List Event) : (s.emit es).lastProgress = s.lastProgress := rfl
@[simp] theorem State.emit_now (s : State) (es : List Event) : (s.emit es).now = s.now := rfl
@[simp] theorem State.emit_cfgLocalId (s : State) (es : List Event) : (s.emit es).cfgLocalId = s.cfgLocalId := rfl
@[simp] theorem State.emit_commands (s : State) (es : List Event) : (s.emit es).commands = s.commands := rfl
@[simp] theorem State.emit_events (s : State) (es : List Event) : (s.emit es).events = s.events ++ es := rfl

/-! ### State.endFrame -/

@[simp] theorem State.endFrame_initialized (s : State) (es : List Event) : (s.endFrame es).initialized = s.initialized := rfl
@[simp] theorem State.endFrame_localId (s : State) (es : List Event) : (s.endFrame es).localId = s.localId := rfl
@[simp] theorem State.endFrame_pstate (s : State) (es : List Event) : (s.endFrame es).pstate = .seekStart := rfl
@[simp] theorem State.endFrame_seekMatched (s : State) (es : List Event) : (s.endFrame es).seekMatched = false := rfl
@[simp] theorem State.endFrame_hbuf (s : State) (es : List Event) : (s.endFrame es).hbuf = s.hbuf := rfl
@[simp] theorem State.endFrame_hcount (s : State) (es : List Event) : (s.endFrame es).hcount = 0 := rfl
@[simp] theorem State.endFrame_pbuf (s : State) (es : List Event) : (s.endFrame es).pbuf = s.pbuf := rfl
@[simp] theorem State.endFrame_pcount (s : State) (es : List Event) : (s.endFrame es).pcount = 0 := rfl
@[simp] theorem State.endFrame_pcrcRx (s : State) (es : List Event) : (s.endFrame es).pcrcRx = s.pcrcRx := rfl
@[simp] theorem State.endFrame_lastProgress (s : State) (es : List Event) : (s.endFrame es).lastProgress = s.lastProgress := rfl
@[simp] theorem State.endFrame_now (s : State) (es : List Event) : (s.endFrame es).now = s.now := rfl
@[simp] theorem State.endFrame_cfgLocalId (s : State) (es : List Event) : (s.endFrame es).cfgLocalId = s.cfgLocalId := rfl
@[simp] theorem State.endFrame_commands (s : State) (es : List Event) : (s.endFrame es).commands = s.commands := rfl
@[simp] theorem State.endFrame_events (s : State) (es : List Event) : (s.endFrame es).events = s.events ++ es := rfl

/-! ### State.present -/

@[simp] theorem State.present_initialized (s : State) (c : Command) (rest : List Command) : (s.present c rest).initialized = s.initialized := rfl
@[simp] theorem State.present_localId (s : State) (c : Command) (rest : List Command) : (s.present c rest).localId = s.localId := rfl
@[simp] theorem State.present_pstate (s : State) (c : Command) (rest : List Command) : (s.present c rest).pstate = s.pstate := rfl
@[simp] theorem State.present_seekMatched (s : State) (c : Command) (rest : List Command) : (s.present c rest).seekMatched = s.seekMatched := rfl
@[simp] theorem State.present_hbuf (s : State) (c : Command) (rest : List Command) : (s.present c rest).hbuf = s.hbuf := rfl
@[simp] theorem State.present_hcount (s : State) (c : Command) (rest : List Command) : (s.present c rest).hcount = s.hcount := rfl
@[simp] theorem State.present_pbuf (s : State) (c : Command) (rest : List Command) : (s.present c rest).pbuf = s.pbuf := rfl
@[simp] theorem State.present_pcount (s : State) (c : Command) (rest : List Command) : (s.present c rest).pcount = s.pcount := rfl
@[simp] theorem State.present_pcrcRx (s : State) (c : Command) (rest : List Command) : (s.present c rest).pcrcRx = s.pcrcRx := rfl
@[simp] theorem State.present_lastProgress (s : State) (c : Command) (rest : List Command) : (s.present c rest).lastProgress = s.lastProgress := rfl
@[simp] theorem State.present_now (s : State) (c : Command) (rest : List Command) : (s.present c rest).now = c.now := rfl
@[simp] theorem State.present_cfgLocalId (s : State) (c : Command) (rest : List Command) : (s.present c rest).cfgLocalId = c.cfgLocalId := rfl
@[simp] theorem State.present_commands (s : State) (c : Command) (rest : List Command) : (s.present c rest).commands = rest := rfl
@[simp] theorem State.present_events (s : State) (c : Command) (rest : List Command) : (s.present c rest).events = s.events := rfl

/-! ### State.issue -/

@[simp] theorem State.issue_initialized (s : State) (cs : List Command) : (s.issue cs).initialized = s.initialized := rfl
@[simp] theorem State.issue_localId (s : State) (cs : List Command) : (s.issue cs).localId = s.localId := rfl
@[simp] theorem State.issue_pstate (s : State) (cs : List Command) : (s.issue cs).pstate = s.pstate := rfl
@[simp] theorem State.issue_seekMatched (s : State) (cs : List Command) : (s.issue cs).seekMatched = s.seekMatched := rfl
@[simp] theorem State.issue_hbuf (s : State) (cs : List Command) : (s.issue cs).hbuf = s.hbuf := rfl
@[simp] theorem State.issue_hcount (s : State) (cs : List Command) : (s.issue cs).hcount = s.hcount := rfl
@[simp] theorem State.issue_pbuf (s : State) (cs : List Command) : (s.issue cs).pbuf = s.pbuf := rfl
@[simp] theorem State.issue_pcount (s : State) (cs : List Command) : (s.issue cs).pcount = s.pcount := rfl
@[simp] theorem State.issue_pcrcRx (s : State) (cs : List Command) : (s.issue cs).pcrcRx = s.pcrcRx := rfl
@[simp] theorem State.issue_lastProgress (s : State) (cs : List Command) : (s.issue cs).lastProgress = s.lastProgress := rfl
@[simp] theorem State.issue_now (s : State) (cs : List Command) : (s.issue cs).now = s.now := rfl
@[simp] theorem State.issue_cfgLocalId (s : State) (cs : List Command) : (s.issue cs).cfgLocalId = s.cfgLocalId := rfl
@[simp] theorem State.issue_commands (s : State) (cs : List Command) : (s.issue cs).commands = s.commands ++ cs := rfl
@[simp] theorem State.issue_events (s : State) (cs : List Command) : (s.issue cs).events = s.events := rfl

/-! ### State.setBuf: the buffers by name, every other field by cases on the buffer -/

@[simp] theorem State.setBuf_initialized (s : State) (k : Buffer) (m : Memory) : (s.setBuf k m).initialized = s.initialized := by
  cases k <;> rfl
@[simp] theorem State.setBuf_localId (s : State) (k : Buffer) (m : Memory) : (s.setBuf k m).localId = s.localId := by
  cases k <;> rfl
@[simp] theorem State.setBuf_pstate (s : State) (k : Buffer) (m : Memory) : (s.setBuf k m).pstate = s.pstate := by
  cases k <;> rfl
@[simp] theorem State.setBuf_seekMatched (s : State) (k : Buffer) (m : Memory) : (s.setBuf k m).seekMatched = s.seekMatched := by
  cases k <;> rfl
@[simp] theorem State.setBuf_hbuf_hbuf (s : State) (m : Memory) : (s.setBuf .hbuf m).hbuf = m := rfl
@[simp] theorem State.setBuf_pbuf_hbuf (s : State) (m : Memory) : (s.setBuf .pbuf m).hbuf = s.hbuf := rfl
@[simp] theorem State.setBuf_pcrcRx_hbuf (s : State) (m : Memory) : (s.setBuf .pcrcRx m).hbuf = s.hbuf := rfl
@[simp] theorem State.setBuf_hcount (s : State) (k : Buffer) (m : Memory) : (s.setBuf k m).hcount = s.hcount := by
  cases k <;> rfl
@[simp] theorem State.setBuf_hbuf_pbuf (s : State) (m : Memory) : (s.setBuf .hbuf m).pbuf = s.pbuf := rfl
@[simp] theorem State.setBuf_pbuf_pbuf (s : State) (m : Memory) : (s.setBuf .pbuf m).pbuf = m := rfl
@[simp] theorem State.setBuf_pcrcRx_pbuf (s : State) (m : Memory) : (s.setBuf .pcrcRx m).pbuf = s.pbuf := rfl
@[simp] theorem State.setBuf_pcount (s : State) (k : Buffer) (m : Memory) : (s.setBuf k m).pcount = s.pcount := by
  cases k <;> rfl
@[simp] theorem State.setBuf_hbuf_pcrcRx (s : State) (m : Memory) : (s.setBuf .hbuf m).pcrcRx = s.pcrcRx := rfl
@[simp] theorem State.setBuf_pbuf_pcrcRx (s : State) (m : Memory) : (s.setBuf .pbuf m).pcrcRx = s.pcrcRx := rfl
@[simp] theorem State.setBuf_pcrcRx_pcrcRx (s : State) (m : Memory) : (s.setBuf .pcrcRx m).pcrcRx = m := rfl
@[simp] theorem State.setBuf_lastProgress (s : State) (k : Buffer) (m : Memory) : (s.setBuf k m).lastProgress = s.lastProgress := by
  cases k <;> rfl
@[simp] theorem State.setBuf_now (s : State) (k : Buffer) (m : Memory) : (s.setBuf k m).now = s.now := by
  cases k <;> rfl
@[simp] theorem State.setBuf_cfgLocalId (s : State) (k : Buffer) (m : Memory) : (s.setBuf k m).cfgLocalId = s.cfgLocalId := by
  cases k <;> rfl
@[simp] theorem State.setBuf_commands (s : State) (k : Buffer) (m : Memory) : (s.setBuf k m).commands = s.commands := by
  cases k <;> rfl
@[simp] theorem State.setBuf_events (s : State) (k : Buffer) (m : Memory) : (s.setBuf k m).events = s.events := by
  cases k <;> rfl

/-- The buffer written holds what was written; the other buffers are as before. -/
theorem State.buf_setBuf (s : State) (k j : Buffer) (m : Memory) :
    (s.setBuf k m).buf j = if j = k then m else s.buf j := by
  cases k <;> cases j <;> rfl

@[simp] theorem State.buf_hbuf (s : State) : s.buf .hbuf = s.hbuf := rfl
@[simp] theorem State.buf_pbuf (s : State) : s.buf .pbuf = s.pbuf := rfl
@[simp] theorem State.buf_pcrcRx (s : State) : s.buf .pcrcRx = s.pcrcRx := rfl

/-! ### The register updates leave every buffer alone -/

@[simp] theorem State.touch_buf (s : State) (k : Buffer) : s.touch.buf k = s.buf k := by
  cases k <;> rfl
@[simp] theorem State.resetParse_buf (s : State) (k : Buffer) : s.resetParse.buf k = s.buf k := by
  cases k <;> rfl
@[simp] theorem State.configure_buf (s : State) (k : Buffer) : s.configure.buf k = s.buf k := by
  cases k <;> rfl
@[simp] theorem State.setMatched_buf (s : State) (m : Bool) (k : Buffer) : (s.setMatched m).buf k = s.buf k := by
  cases k <;> rfl
@[simp] theorem State.enterHeader_buf (s : State) (k : Buffer) : s.enterHeader.buf k = s.buf k := by
  cases k <;> rfl
@[simp] theorem State.enterPayload_buf (s : State) (k : Buffer) : s.enterPayload.buf k = s.buf k := by
  cases k <;> rfl
@[simp] theorem State.setHcount_buf (s : State) (n : Nat) (k : Buffer) : (s.setHcount n).buf k = s.buf k := by
  cases k <;> rfl
@[simp] theorem State.setPcount_buf (s : State) (n : Nat) (k : Buffer) : (s.setPcount n).buf k = s.buf k := by
  cases k <;> rfl
@[simp] theorem State.emit_buf (s : State) (es : List Event) (k : Buffer) : (s.emit es).buf k = s.buf k := by
  cases k <;> rfl
@[simp] theorem State.endFrame_buf (s : State) (es : List Event) (k : Buffer) : (s.endFrame es).buf k = s.buf k := by
  cases k <;> rfl
@[simp] theorem State.present_buf (s : State) (c : Command) (rest : List Command) (k : Buffer) : (s.present c rest).buf k = s.buf k := by
  cases k <;> rfl
@[simp] theorem State.issue_buf (s : State) (cs : List Command) (k : Buffer) : (s.issue cs).buf k = s.buf k := by
  cases k <;> rfl

end Sys2Proof.Machine
end

