-- ==== Sys2Proof/Laws/Ops.lean ====
section
/-! SUPPORT. What each shared operation can do, said once: storing a byte, sequencing, the check for INIT, the end of a frame. -/

namespace Sys2Proof.Machine

@[simp] theorem andThen_next (s : State) (f : State → Result) : andThen (.next s) f = f s := rfl
@[simp] theorem andThen_fault (e : Fault) (f : State → Result) : andThen (.fault e) f = .fault e := rfl
@[simp] theorem andThen_refused (e : Refusal) (f : State → Result) : andThen (.refused e) f = .refused e := rfl

/-- A sequence answers a next state exactly when both parts do. -/
theorem andThen_eq_next {r : Result} {f : State → Result} {t : State} :
    andThen r f = .next t ↔ ∃ u, r = .next u ∧ f u = .next t := by
  cases r <;> simp

theorem requireInit_of_init {s : State} {f : State → Result} (h : s.initialized = true) :
    requireInit s f = f s := by simp [requireInit, h]

theorem requireInit_of_not_init {s : State} {f : State → Result} (h : s.initialized = false) :
    requireInit s f = .refused .notInit := by simp [requireInit, h]

/-- What needs INIT answers a next state only after INIT. -/
theorem requireInit_eq_next {s t : State} {f : State → Result} :
    requireInit s f = .next t ↔ s.initialized = true ∧ f s = .next t := by
  cases h : s.initialized <;> simp [requireInit, h]

theorem storeByte_of_lt {p : Params} {k : Buffer} {i : Nat} {b : Byte} {s : State} (h : i < k.size p) :
    storeByte p k i b s = .next (s.setBuf k (Memory.write (s.buf k) i b)) := by simp [storeByte, h]

theorem storeByte_of_ge {p : Params} {k : Buffer} {i : Nat} {b : Byte} {s : State} (h : k.size p ≤ i) :
    storeByte p k i b s = .fault (.bufferRange k) := by
  simp [storeByte, Nat.not_lt.mpr h]

/-- A byte is stored exactly when its index lies in the array. -/
theorem storeByte_eq_next {p : Params} {k : Buffer} {i : Nat} {b : Byte} {s t : State} :
    storeByte p k i b s = .next t ↔ i < k.size p ∧ t = s.setBuf k (Memory.write (s.buf k) i b) := by
  unfold storeByte
  split
  · rename_i h
    simp [h, eq_comm]
  · rename_i h
    simp [h]

theorem storeByte_not_refused {p : Params} {k : Buffer} {i : Nat} {b : Byte} {s : State} {r : Refusal} :
    storeByte p k i b s ≠ .refused r := by
  unfold storeByte
  split <;> simp

/-- Storing a byte keeps every buffer canonical and inside its array. -/
theorem storeByte_keeps_buffers {p : Params} {k : Buffer} {i : Nat} {b : Byte} {s t : State}
    (h : storeByte p k i b s = .next t) (hs : BuffersOk p s) : BuffersOk p t := by
  obtain ⟨hi, rfl⟩ := storeByte_eq_next.mp h
  intro j
  rw [State.buf_setBuf]
  split
  · subst_vars
    exact ⟨Memory.write_wf i b (hs j).1, Memory.write_below b hi (hs j).2⟩
  · exact hs j

/-- Buffers that are the same are as good. -/
theorem BuffersOk.congr {p : Params} {s t : State} (h : BuffersOk p s) (e : ∀ k, t.buf k = s.buf k) :
    BuffersOk p t := fun k => by rw [e k]; exact h k

/-- The power-on buffers are canonical. -/
theorem reset_buffers (p : Params) : BuffersOk p State.reset := fun k => by cases k <;> exact ⟨rfl, rfl⟩

/-! ### What the views of the buffers depend on -/

theorem headerBytes_congr {s t : State} (h : t.hbuf = s.hbuf) : headerBytes t = headerBytes s := by
  simp [headerBytes, h]

theorem lenOf_eq {s : State} {hb : List Byte} (h : headerBytes s = some hb) :
    lenOf s = (viewLen hb).toNat := by simp [lenOf, h]

end Sys2Proof.Machine
end

