-- ==== Sys2Proof/Laws/PerInstr.lean ====
section
/-! SUPPORT. Statements about every instruction as syntax, one lemma per constructor. -/

namespace Sys2Proof.Laws

/-- The word of every instruction is no reserved word (spec 30_encoding.md R72). -/
def EncodedWord.Statement (i : Instr) : Prop := CmdWord.wellFormed (encode i) = true

theorem EncodedWord.nop : EncodedWord.Statement .nop := by unfold EncodedWord.Statement; decide

theorem EncodedWord.push (b : Byte) : EncodedWord.Statement (.push b) := by
  have h : (encode (.push b)).extractLsb' 8 2 = 1#2 := by
    apply BitVec.eq_of_getLsbD_eq
    intro i hi
    have : 8 + i - 8 = i := by omega
    simp only [encode, BitVec.getLsbD_extractLsb', BitVec.getLsbD_append]
    simp [hi, this]
  simp [EncodedWord.Statement, CmdWord.wellFormed, h]

theorem EncodedWord.reset : EncodedWord.Statement .reset := by unfold EncodedWord.Statement; decide

theorem EncodedWord.init : EncodedWord.Statement .init := by unfold EncodedWord.Statement; decide

end Sys2Proof.Laws
end

