-- ==== Sys2Proof/Laws/Push.lean ====
section
/-! SUPPORT. What each part of PUSH can do, said once (spec 41_parser.md R125-R139): one lemma that computes a part where its
conditions are known, and one that lists every way the part can answer a next state. -/

namespace Sys2Proof.Machine

/-! ### HeaderComplete -/

/-- The five outcomes of a complete header, each with the conditions that select it (R129). -/
theorem headerComplete_cases (p : Params) (hb : List Byte) (s : State) :
    (headerCheck p hb = false ∧ headerComplete p hb s = headerCrcError p hb s)
    ∨ (headerCheck p hb = true ∧ viewDst hb ≠ s.localId ∧ headerComplete p hb s = destinationDrop s)
    ∨ (headerCheck p hb = true ∧ viewDst hb = s.localId ∧ p.maxFrag < (viewLen hb).toNat
        ∧ headerComplete p hb s = lengthError hb s)
    ∨ (headerCheck p hb = true ∧ viewDst hb = s.localId ∧ viewLen hb = 0#16
        ∧ headerComplete p hb s = dispatchEmpty hb s)
    ∨ (headerCheck p hb = true ∧ viewDst hb = s.localId ∧ 1 ≤ (viewLen hb).toNat ∧ (viewLen hb).toNat ≤ p.maxFrag
        ∧ headerComplete p hb s = s.enterPayload) := by
  unfold headerComplete lengthExceeds
  cases hc : headerCheck p hb
  · exact .inl ⟨rfl, by simp⟩
  by_cases hd : viewDst hb = s.localId
  · by_cases hl : p.maxFrag < (viewLen hb).toNat
    · exact .inr (.inr (.inl ⟨rfl, hd, hl, by simp [hd, hl]⟩))
    · by_cases h0 : viewLen hb = 0#16
      · exact .inr (.inr (.inr (.inl ⟨rfl, hd, h0, by simp [hd, h0]⟩)))
      · have : (viewLen hb).toNat ≠ 0 := fun e => h0 (BitVec.eq_of_toNat_eq (by simpa using e))
        exact .inr (.inr (.inr (.inr ⟨rfl, hd, by omega, by omega, by simp [hd, hl, h0]⟩)))
  · exact .inr (.inl ⟨rfl, hd, by simp [hd]⟩)

/-! ### HeaderByte -/

/-- Before the 19th byte, the byte is stored and counted (R128). -/
theorem headerByte_of_lt {p : Params} {b : Byte} {s : State} (h : s.hcount < 18) :
    headerByte p b s =
      .next ((s.setBuf .hbuf (Memory.write s.hbuf s.hcount b)).setHcount (s.hcount + 1)) := by
  have hs : s.hcount < Buffer.size p .hbuf := by simp [Buffer.size]; omega
  have hn : s.hcount ≠ 18 := by omega
  simp [headerByte, storeByte_of_lt hs, hn]

/-- At the 19th byte the header is complete and its 19 bytes are checked (R128, R129). -/
theorem headerByte_last {p : Params} {b : Byte} {s : State} {bs : List Byte} (h : s.hcount = 18)
    (hs : Memory.slice s.hbuf 0 18 = some bs) :
    headerByte p b s =
      .next (headerComplete p (bs ++ [b]) ((s.setBuf .hbuf (Memory.write s.hbuf 18 b)).setHcount 19)) := by
  have hlt : (18 : Nat) < Buffer.size p .hbuf := by simp [Buffer.size]
  have hh : headerBytes ((s.setBuf .hbuf (Memory.write s.hbuf 18 b)).setHcount 19) = some (bs ++ [b]) := by
    simpa [headerBytes] using Memory.slice_write_end b hs
  simp [headerByte, h, storeByte_of_lt hlt, hh]

/-- Every way HeaderByte answers a next state. -/
theorem headerByte_next {p : Params} {b : Byte} {s t : State} (h : headerByte p b s = .next t) :
    (s.hcount < 19 ∧ s.hcount ≠ 18
        ∧ t = (s.setBuf .hbuf (Memory.write s.hbuf s.hcount b)).setHcount (s.hcount + 1))
    ∨ (s.hcount = 18 ∧ ∃ bs, Memory.slice s.hbuf 0 18 = some bs
        ∧ t = headerComplete p (bs ++ [b]) ((s.setBuf .hbuf (Memory.write s.hbuf 18 b)).setHcount 19)) := by
  by_cases h18 : s.hcount = 18
  · refine .inr ⟨h18, ?_⟩
    cases hs : Memory.slice s.hbuf 0 18 with
    | some bs =>
      rw [headerByte_last h18 hs] at h
      exact ⟨bs, rfl, by simpa using h.symm⟩
    | none =>
      exfalso
      have hlt : (18 : Nat) < Buffer.size p .hbuf := by simp [Buffer.size]
      have hh : headerBytes ((s.setBuf .hbuf (Memory.write s.hbuf 18 b)).setHcount 19) = none := by
        cases hb : headerBytes ((s.setBuf .hbuf (Memory.write s.hbuf 18 b)).setHcount 19) with
        | none => rfl
        | some hb' =>
          have hw : Memory.Written (Memory.write s.hbuf 18 b) 18 :=
            (Memory.written_iff_slice.mpr ⟨hb', by simpa [headerBytes] using hb⟩ :
              Memory.Written (Memory.write s.hbuf 18 b) 19).mono (by omega)
          obtain ⟨bs, hbs⟩ := Memory.written_iff_slice.mp hw
          rw [Memory.slice_write_past b (Nat.le_refl 18), hs] at hbs
          cases hbs
      simp [headerByte, h18, storeByte_of_lt hlt, hh] at h
  · obtain ⟨u, hu, ht⟩ := andThen_eq_next.mp h
    obtain ⟨hlt, rfl⟩ := storeByte_eq_next.mp hu
    refine .inl ⟨hlt, h18, ?_⟩
    simpa [h18] using ht.symm

/-! ### PayloadByte -/

/-- While PCOUNT < LEN the byte is a payload byte (R135). -/
theorem payloadStore_of_lt {p : Params} {hb : List Byte} {b : Byte} {s : State}
    (h : s.pcount < (viewLen hb).toNat) (hm : s.pcount < p.maxFrag) :
    payloadStore p hb b s =
      .next ((s.setBuf .pbuf (Memory.write s.pbuf s.pcount b)).setPcount (s.pcount + 1)) := by
  have hs : s.pcount < Buffer.size p .pbuf := by simpa [Buffer.size] using hm
  simp [payloadStore, h, storeByte_of_lt hs]

/-- At PCOUNT = LEN the byte is the low checksum byte (R136). -/
theorem payloadStore_low {p : Params} {hb : List Byte} {b : Byte} {s : State}
    (h : s.pcount = (viewLen hb).toNat) :
    payloadStore p hb b s =
      .next ((s.setBuf .pcrcRx (Memory.write s.pcrcRx 0 b)).setPcount (s.pcount + 1)) := by
  have hs : (0 : Nat) < Buffer.size p .pcrcRx := by simp [Buffer.size]
  simp [payloadStore, h, storeByte_of_lt hs]

/-- At PCOUNT = LEN + 1 the byte is the high checksum byte and the check decides (R137). -/
theorem payloadStore_high {p : Params} {hb : List Byte} {b lo : Byte} {s : State} {payload : List Byte}
    (h : s.pcount = (viewLen hb).toNat + 1)
    (hp : Memory.slice s.pbuf 0 (viewLen hb).toNat = some payload) (hlo : Memory.read s.pcrcRx 0 = some lo) :
    payloadStore p hb b s =
      let u := (s.setBuf .pcrcRx (Memory.write s.pcrcRx 1 b)).setPcount ((viewLen hb).toNat + 2)
      .next (if payloadCheck payload [lo, b] then payloadAccept hb payload [lo, b] u
        else payloadCrcError hb payload [lo, b] u) := by
  have hs : (1 : Nat) < Buffer.size p .pcrcRx := by simp [Buffer.size]
  have h1 : Memory.slice s.pcrcRx 0 1 = some [lo] := by simp [Memory.slice, hlo]
  have h2 : Memory.slice (Memory.write s.pcrcRx 1 b) 0 2 = some [lo, b] := Memory.slice_write_end b h1
  have hsub : (viewLen hb).toNat + 1 - (viewLen hb).toNat = 1 := by omega
  have hnlt : ¬ (viewLen hb).toNat + 1 < (viewLen hb).toNat := by omega
  simp [payloadStore, h, hnlt, hsub, storeByte_of_lt hs, payloadComplete, payloadBytes, checksumBytes, hp, h2]

/-- Every way PayloadByte, with the header at hand, answers a next state. -/
theorem payloadStore_next {p : Params} {hb : List Byte} {b : Byte} {s t : State}
    (h : payloadStore p hb b s = .next t) :
    (s.pcount < (viewLen hb).toNat ∧ s.pcount < p.maxFrag
        ∧ t = (s.setBuf .pbuf (Memory.write s.pbuf s.pcount b)).setPcount (s.pcount + 1))
    ∨ (s.pcount = (viewLen hb).toNat
        ∧ t = (s.setBuf .pcrcRx (Memory.write s.pcrcRx 0 b)).setPcount (s.pcount + 1))
    ∨ (s.pcount = (viewLen hb).toNat + 1 ∧ ∃ payload lo,
        Memory.slice s.pbuf 0 (viewLen hb).toNat = some payload ∧ Memory.read s.pcrcRx 0 = some lo
        ∧ t = (let u := (s.setBuf .pcrcRx (Memory.write s.pcrcRx 1 b)).setPcount ((viewLen hb).toNat + 2)
            if payloadCheck payload [lo, b] then payloadAccept hb payload [lo, b] u
            else payloadCrcError hb payload [lo, b] u)) := by
  by_cases hlt : s.pcount < (viewLen hb).toNat
  · simp only [payloadStore, hlt, if_true] at h
    obtain ⟨u, hu, ht⟩ := andThen_eq_next.mp h
    obtain ⟨hm, rfl⟩ := storeByte_eq_next.mp hu
    exact .inl ⟨hlt, by simpa [Buffer.size] using hm, by simpa using ht.symm⟩
  · by_cases h0 : s.pcount = (viewLen hb).toNat
    · rw [payloadStore_low h0] at h
      exact .inr (.inl ⟨h0, by simpa using h.symm⟩)
    · by_cases h1 : s.pcount = (viewLen hb).toNat + 1
      · refine .inr (.inr ⟨h1, ?_⟩)
        cases hp : Memory.slice s.pbuf 0 (viewLen hb).toNat with
        | some payload =>
          cases hlo : Memory.read s.pcrcRx 0 with
          | some lo =>
            rw [payloadStore_high h1 hp hlo] at h
            exact ⟨payload, lo, rfl, rfl, by simpa using h.symm⟩
          | none =>
            exfalso
            have hs : (1 : Nat) < Buffer.size p .pcrcRx := by simp [Buffer.size]
            have hsub : (viewLen hb).toNat + 1 - (viewLen hb).toNat = 1 := by omega
            have hnlt : ¬ (viewLen hb).toNat + 1 < (viewLen hb).toNat := by omega
            have h2 : Memory.slice (Memory.write s.pcrcRx 1 b) 0 2 = none := by
              simp [Memory.slice, Memory.read_write, hlo]
            simp [payloadStore, h1, hnlt, hsub, storeByte_of_lt hs, payloadComplete, payloadBytes, checksumBytes, hp, h2] at h
        | none =>
          exfalso
          have hs : (1 : Nat) < Buffer.size p .pcrcRx := by simp [Buffer.size]
          have hsub : (viewLen hb).toNat + 1 - (viewLen hb).toNat = 1 := by omega
          have hnlt : ¬ (viewLen hb).toNat + 1 < (viewLen hb).toNat := by omega
          simp [payloadStore, h1, hnlt, hsub, storeByte_of_lt hs, payloadComplete, payloadBytes, hp] at h
      · exfalso
        have hs : Buffer.size p .pcrcRx ≤ s.pcount - (viewLen hb).toNat := by simp [Buffer.size]; omega
        simp [payloadStore, hlt, storeByte_of_ge hs] at h

/-! ### PUSH by parser state -/

theorem pushWith_seek {p : Params} {b : Byte} {s : State} (hi : s.initialized = true) (h : s.pstate = .seekStart) :
    pushWith p b s = .next (if s.seekMatched then seekHigh p b s.touch else seekLow p b s.touch) := by
  rw [pushWith, requireInit_of_init hi]
  simp only [State.touch_pstate, h]
  rfl

theorem pushWith_header {p : Params} {b : Byte} {s : State} (hi : s.initialized = true)
    (h : s.pstate = .readingHeader) : pushWith p b s = headerByte p b s.touch := by
  simp [pushWith, requireInit_of_init hi, h]

theorem pushWith_payload {p : Params} {b : Byte} {s : State} {hb : List Byte} (hi : s.initialized = true)
    (h : s.pstate = .readingPayload) (hh : headerBytes s = some hb) :
    pushWith p b s = payloadStore p hb b s.touch := by
  have : headerBytes s.touch = some hb := hh
  simp [pushWith, requireInit_of_init hi, h, payloadByte, this]

/-- Every way PUSH answers a next state, by parser state. -/
theorem pushWith_next {p : Params} {b : Byte} {s t : State} (h : pushWith p b s = .next t) :
    s.initialized = true ∧
      ((s.pstate = .seekStart ∧ t = (if s.seekMatched then seekHigh p b s.touch else seekLow p b s.touch))
      ∨ (s.pstate = .readingHeader ∧ headerByte p b s.touch = .next t)
      ∨ (s.pstate = .readingPayload ∧ ∃ hb, headerBytes s = some hb ∧ payloadStore p hb b s.touch = .next t)) := by
  have hi : s.initialized = true := (requireInit_eq_next.mp h).1
  refine ⟨hi, ?_⟩
  cases hp : s.pstate with
  | seekStart =>
    rw [pushWith_seek hi hp] at h
    cases h
    exact .inl ⟨rfl, rfl⟩
  | readingHeader =>
    rw [pushWith_header hi hp] at h
    exact .inr (.inl ⟨rfl, h⟩)
  | readingPayload =>
    refine .inr (.inr ⟨rfl, ?_⟩)
    cases hh : headerBytes s with
    | some hb =>
      rw [pushWith_payload hi hp hh] at h
      exact ⟨hb, rfl, h⟩
    | none =>
      have : headerBytes s.touch = none := hh
      simp [pushWith, requireInit_of_init hi, hp, payloadByte, this] at h

/-- Every way PUSH answers a next state, flattened: one case per rule R126 to R128 and R135 to R137, with what selects it. -/
theorem push_cases {p : Params} {b : Byte} {s t : State} (h : pushWith p b s = .next t) :
    s.initialized = true ∧
      ((s.pstate = .seekStart ∧ s.seekMatched = false ∧ t = s.touch.setMatched (isMarkerLow p b))
      ∨ (s.pstate = .seekStart ∧ s.seekMatched = true
          ∧ (t = s.touch.enterHeader ∨ t = s.touch.setMatched true ∨ t = s.touch.setMatched false))
      ∨ (s.pstate = .readingHeader ∧ s.hcount < 18
          ∧ t = (s.touch.setBuf .hbuf (Memory.write s.hbuf s.hcount b)).setHcount (s.hcount + 1))
      ∨ (s.pstate = .readingHeader ∧ s.hcount = 18 ∧ ∃ bs, Memory.slice s.hbuf 0 18 = some bs
          ∧ t = headerComplete p (bs ++ [b]) ((s.touch.setBuf .hbuf (Memory.write s.hbuf 18 b)).setHcount 19))
      ∨ (s.pstate = .readingPayload ∧ ∃ hb, headerBytes s = some hb ∧ s.pcount < (viewLen hb).toNat
          ∧ s.pcount < p.maxFrag
          ∧ t = (s.touch.setBuf .pbuf (Memory.write s.pbuf s.pcount b)).setPcount (s.pcount + 1))
      ∨ (s.pstate = .readingPayload ∧ ∃ hb, headerBytes s = some hb ∧ s.pcount = (viewLen hb).toNat
          ∧ t = (s.touch.setBuf .pcrcRx (Memory.write s.pcrcRx 0 b)).setPcount (s.pcount + 1))
      ∨ (s.pstate = .readingPayload ∧ ∃ hb pl lo, headerBytes s = some hb ∧ s.pcount = (viewLen hb).toNat + 1
          ∧ Memory.slice s.pbuf 0 (viewLen hb).toNat = some pl ∧ Memory.read s.pcrcRx 0 = some lo
          ∧ ((payloadCheck pl [lo, b] = true ∧ t = payloadAccept hb pl [lo, b]
                ((s.touch.setBuf .pcrcRx (Memory.write s.pcrcRx 1 b)).setPcount ((viewLen hb).toNat + 2)))
            ∨ (payloadCheck pl [lo, b] = false ∧ t = payloadCrcError hb pl [lo, b]
                ((s.touch.setBuf .pcrcRx (Memory.write s.pcrcRx 1 b)).setPcount ((viewLen hb).toNat + 2)))))) := by
  obtain ⟨hi, h | h | h⟩ := pushWith_next h
  · refine ⟨hi, ?_⟩
    obtain ⟨hp, rfl⟩ := h
    cases hm : s.seekMatched with
    | false => exact .inl ⟨hp, rfl, by simp [seekLow]⟩
    | true =>
      refine .inr (.inl ⟨hp, rfl, ?_⟩)
      simp only [if_true, seekHigh]
      split
      · exact .inl rfl
      · split
        · exact .inr (.inl rfl)
        · exact .inr (.inr rfl)
  · obtain ⟨hp, h⟩ := h
    refine ⟨hi, ?_⟩
    rcases headerByte_next h with ⟨h19, h18, rfl⟩ | ⟨h18, bs, hs, rfl⟩
    · have : s.hcount < 18 := by simp at h19 h18; omega
      exact .inr (.inr (.inl ⟨hp, this, rfl⟩))
    · exact .inr (.inr (.inr (.inl ⟨hp, h18, bs, hs, rfl⟩)))
  · obtain ⟨hp, hb, hh, h⟩ := h
    refine ⟨hi, ?_⟩
    rcases payloadStore_next h with ⟨h1, h2, rfl⟩ | ⟨h1, rfl⟩ | ⟨h1, pl, lo, hs, hl, rfl⟩
    · exact .inr (.inr (.inr (.inr (.inl ⟨hp, hb, hh, h1, h2, rfl⟩))))
    · exact .inr (.inr (.inr (.inr (.inr (.inl ⟨hp, hb, hh, h1, rfl⟩)))))
    · refine .inr (.inr (.inr (.inr (.inr (.inr ⟨hp, hb, pl, lo, hh, h1, hs, hl, ?_⟩)))))
      cases hc : payloadCheck pl [lo, b] with
      | true => exact .inl ⟨rfl, by simp⟩
      | false => exact .inr ⟨rfl, by simp⟩

/-- What a complete header leaves alone: everything but PSTATE, SEEK_MATCHED, the counts and the events (R130-R134). -/
theorem headerComplete_keeps (p : Params) (hb : List Byte) (s : State) :
    let t := headerComplete p hb s
    t.localId = s.localId ∧ t.initialized = s.initialized ∧ t.now = s.now ∧ t.cfgLocalId = s.cfgLocalId
      ∧ t.commands = s.commands ∧ t.lastProgress = s.lastProgress
      ∧ t.hbuf = s.hbuf ∧ t.pbuf = s.pbuf ∧ t.pcrcRx = s.pcrcRx := by
  rcases headerComplete_cases p hb s with h | h | h | h | h
  · rw [h.2]; exact ⟨rfl, rfl, rfl, rfl, rfl, rfl, rfl, rfl, rfl⟩
  · rw [h.2.2]; exact ⟨rfl, rfl, rfl, rfl, rfl, rfl, rfl, rfl, rfl⟩
  · rw [h.2.2.2]; exact ⟨rfl, rfl, rfl, rfl, rfl, rfl, rfl, rfl, rfl⟩
  · rw [h.2.2.2]; exact ⟨rfl, rfl, rfl, rfl, rfl, rfl, rfl, rfl, rfl⟩
  · rw [h.2.2.2.2]; exact ⟨rfl, rfl, rfl, rfl, rfl, rfl, rfl, rfl, rfl⟩

/-- What PUSH leaves alone among the registers and the port, and what it stamps (R125, R141). -/
theorem push_keeps {p : Params} {b : Byte} {s t : State} (h : pushWith p b s = .next t) :
    t.localId = s.localId ∧ t.initialized = s.initialized ∧ t.now = s.now ∧ t.cfgLocalId = s.cfgLocalId
      ∧ t.commands = s.commands ∧ t.lastProgress = s.now := by
  obtain ⟨-, h⟩ := push_cases h
  rcases h with ⟨-, -, rfl⟩ | ⟨-, -, rfl | rfl | rfl⟩ | ⟨-, -, rfl⟩ | ⟨-, -, bs, -, rfl⟩ | ⟨-, hb, -, -, -, rfl⟩ | ⟨-, hb, -, -, rfl⟩ | ⟨-, hb, pl, lo, -, -, -, -, ⟨-, rfl⟩ | ⟨-, rfl⟩⟩
  iterate 5 exact ⟨rfl, rfl, rfl, rfl, rfl, rfl⟩
  · have := headerComplete_keeps p (bs ++ [b]) ((s.touch.setBuf .hbuf (Memory.write s.hbuf 18 b)).setHcount 19)
    simp only at this
    simp [this]
  all_goals exact ⟨rfl, rfl, rfl, rfl, rfl, rfl⟩

/-! ### PUSH refuses only before INIT -/

theorem headerByte_not_refused {p : Params} {b : Byte} {s : State} {r : Refusal} : headerByte p b s ≠ .refused r := by
  intro h
  unfold headerByte at h
  cases hs : storeByte p .hbuf s.hcount b s with
  | next u =>
    simp only [hs, andThen_next] at h
    split at h
    · split at h <;> cases h
    · cases h
  | fault e => simp [hs] at h
  | refused e => exact storeByte_not_refused hs

theorem payloadStore_not_refused {p : Params} {hb : List Byte} {b : Byte} {s : State} {r : Refusal} :
    payloadStore p hb b s ≠ .refused r := by
  intro h
  unfold payloadStore at h
  simp only at h
  split at h
  · cases hs : storeByte p .pbuf s.pcount b s with
    | next u => simp [hs] at h
    | fault e => simp [hs] at h
    | refused e => exact storeByte_not_refused hs
  · cases hs : storeByte p .pcrcRx (s.pcount - (viewLen hb).toNat) b s with
    | next u =>
      simp only [hs, andThen_next] at h
      split at h
      · unfold payloadComplete at h
        split at h <;> cases h
      · cases h
    | fault e => simp [hs] at h
    | refused e => exact storeByte_not_refused hs

theorem pushWith_refused {p : Params} {b : Byte} {s : State} {r : Refusal} :
    pushWith p b s = .refused r ↔ s.initialized = false ∧ r = .notInit := by
  cases hi : s.initialized with
  | false =>
    rw [pushWith, requireInit_of_not_init hi]
    simp [eq_comm]
  | true =>
    simp only [Bool.true_eq_false, false_and, iff_false]
    intro h
    cases hp : s.pstate with
    | seekStart => simp [pushWith_seek hi hp] at h
    | readingHeader => rw [pushWith_header hi hp] at h; exact headerByte_not_refused h
    | readingPayload =>
      cases hh : headerBytes s with
      | some hb => rw [pushWith_payload hi hp hh] at h; exact payloadStore_not_refused h
      | none =>
        have : headerBytes s.touch = none := hh
        simp [pushWith, requireInit_of_init hi, hp, payloadByte, this] at h

end Sys2Proof.Machine
end

