-- ==== Sys2Proof/Laws/Step.lean ====
section
/-! SUPPORT. What a step can do, said once, and how a run goes on from its first step (spec 41_parser.md R120). -/

namespace Sys2Proof.Machine

theorem step_of_empty {s : State} (h : s.commands = []) : step s = .next s := by simp [step, h, idle]

theorem step_of_command {s : State} {c : Command} {rest : List Command} {i : Instr} (h : s.commands = c :: rest)
    (hd : decode c.word = .command i) : step s = exec i (s.present c rest) := by simp [step, h, hd]

theorem step_of_reserved {s : State} {c : Command} {rest : List Command} (h : s.commands = c :: rest)
    (hd : decode c.word = .reserved) : step s = .refused .reserved := by simp [step, h, hd, refuseReserved]

/-- Every way a step answers a next state: no command waits, or the next command is performed. -/
theorem step_next {s t : State} (h : step s = .next t) :
    (s.commands = [] ∧ t = s)
    ∨ ∃ c rest i, s.commands = c :: rest ∧ decode c.word = .command i ∧ exec i (s.present c rest) = .next t := by
  cases hc : s.commands with
  | nil => rw [step_of_empty hc] at h; exact .inl ⟨rfl, by simpa using h.symm⟩
  | cons c rest =>
    cases hd : decode c.word with
    | command i => rw [step_of_command hc hd] at h; exact .inr ⟨c, rest, i, rfl, hd, h⟩
    | reserved => rw [step_of_reserved hc hd] at h; cases h

/-! ### The meanings, at exec -/

theorem exec_nop (s : State) : exec .nop s = .next s := rfl

theorem exec_init (s : State) : exec .init s = .next s.configure.resetParse.touch := rfl

theorem exec_reset {s : State} (h : s.initialized = true) : exec .reset s = .next s.resetParse.touch := by
  simp [exec, execReset, requireInit_of_init h]

theorem exec_reset_not_init {s : State} (h : s.initialized = false) : exec .reset s = .refused .notInit := by
  simp [exec, execReset, requireInit_of_not_init h]

theorem exec_push (b : Byte) (s : State) : exec (.push b) s = pushWith Config.params b s := rfl

/-! ### Decoding an encoded command -/

theorem decode_push (b : Byte) : decode (encode (.push b)) = .command (.push b) := by
  have hc : cmdField (encode (.push b)) = 0b01#2 := by
    apply BitVec.eq_of_getLsbD_eq
    intro i hi
    have : 8 + i - 8 = i := by omega
    simp only [cmdField, encode, BitVec.getLsbD_extractLsb', BitVec.getLsbD_append]
    simp [hi, this]
  have hd : dinField (encode (.push b)) = b := by
    apply BitVec.eq_of_getLsbD_eq
    intro i hi
    simp only [dinField, encode, BitVec.getLsbD_extractLsb', BitVec.getLsbD_append]
    simp [hi]
  simp [decode, hc, hd]

/-- A waiting PUSH command is performed by the next step. -/
theorem step_push {s : State} {c : Command} {rest : List Command} {b : Byte} (h : s.commands = c :: rest)
    (hw : c.word = encode (.push b)) : step s = exec (.push b) (s.present c rest) :=
  step_of_command h (by rw [hw]; exact decode_push b)

/-! ### Runs -/

@[simp] theorem run_zero (s : State) : Host.Core.run Sys2Proof.core 0 s = .next s := rfl

theorem run_succ_next {s t : State} (n : Nat) (h : step s = .next t) :
    Host.Core.run Sys2Proof.core (n + 1) s = Host.Core.run Sys2Proof.core n t := by
  simp only [Host.Core.run]
  rw [show Sys2Proof.core.step s = _ from h]

theorem run_succ_fault {s : State} {e : Fault} (n : Nat) (h : step s = .fault e) :
    Host.Core.run Sys2Proof.core (n + 1) s = .fault e := by
  simp only [Host.Core.run]
  rw [show Sys2Proof.core.step s = _ from h]

theorem run_succ_refused {s : State} {r : Refusal} (n : Nat) (h : step s = .refused r) :
    Host.Core.run Sys2Proof.core (n + 1) s = .refused r := by
  simp only [Host.Core.run]
  rw [show Sys2Proof.core.step s = _ from h]

/-- A run of a + b steps is a run of a steps and then, from where it ended, one of b. -/
theorem run_add {s t : State} {a : Nat} (b : Nat) (h : Host.Core.run Sys2Proof.core a s = .next t) :
    Host.Core.run Sys2Proof.core (a + b) s = Host.Core.run Sys2Proof.core b t := by
  induction a generalizing s with
  | zero =>
    cases h
    rw [Nat.zero_add]
  | succ a ih =>
    cases hs : step s with
    | next u =>
      rw [run_succ_next a hs] at h
      rw [show a + 1 + b = (a + b) + 1 by omega, run_succ_next _ hs]
      exact ih h
    | fault e => rw [run_succ_fault a hs] at h; cases h
    | refused e => rw [run_succ_refused a hs] at h; cases h

end Sys2Proof.Machine
end

