-- ==== Sys2Proof/Laws/Wire.lean ====
section
/-! SUPPORT. What the views of HBUF give on the bytes of an encoded header: the fields it was encoded from (spec 10_state.md
R30, 42_wire_functions.md R170), and the lengths of the encoded parts. -/

namespace Sys2Proof.Machine

/-- The 17 header-field bytes of an encoded header, those that HBUF receives before the checksum. -/
def headerFieldBytes (h : Header) (len : Half) : List Byte :=
  le32Bytes h.src ++ le32Bytes h.dst ++ [h.cls, h.mtype] ++ le16Bytes h.total ++ [h.ackreq] ++ le16Bytes h.seq ++ le16Bytes len

theorem encodeHeader_eq (p : Params) (h : Header) (len : Half) :
    encodeHeader p h len = [smLo p, smHi p] ++ headerFieldBytes h len := rfl

theorem encodeHeader_length (p : Params) (h : Header) (len : Half) : (encodeHeader p h len).length = 19 := rfl

theorem headerFieldBytes_length (h : Header) (len : Half) : (headerFieldBytes h len).length = 17 := rfl

theorem withChecksum_length (bs : List Byte) : (withChecksum bs).length = bs.length + 2 := by simp [withChecksum]

/-- The views of the header-field bytes followed by any checksum `c`. -/
theorem views_of_fields (p : Params) (h : Header) (len c : Half) :
    let hb := headerFieldBytes h len ++ le16Bytes c
    viewHeader hb = h ∧ viewLen hb = len ∧ viewHcrc hb = c ∧ headerCalc p hb = crc16 (encodeHeader p h len) := by
  refine ⟨?_, le16_bytes _, le16_bytes _, rfl⟩
  cases h
  simp only [viewHeader, Header.mk.injEq]
  exact ⟨le32_bytes _, le32_bytes _, rfl, rfl, le16_bytes _, rfl, le16_bytes _⟩

/-- A header with the checksum of its own bytes passes the header check (spec 40_crc.md R103). -/
theorem headerCheck_of_fields (p : Params) (h : Header) (len : Half) :
    headerCheck p (headerFieldBytes h len ++ le16Bytes (crc16 (encodeHeader p h len))) = true := by
  obtain ⟨-, -, h3, h4⟩ := views_of_fields p h len (crc16 (encodeHeader p h len))
  rw [headerCheck, h3, h4, beq_self_eq_true]

end Sys2Proof.Machine
end

