-- ==== Sys2Proof/Tests/Slice0.lean ====
section
/-! SUPPORT. The model's own tests: well-formedness, decoding of command words written out from the spec, single steps from the
spec's vectors (95_test_vectors.md), and for each statement with hypotheses a witness that meets all of them together. -/

namespace Sys2Proof.Tests

open Sys2Proof Sys2Proof.Machine

/-- The example parameters at the head of 95_test_vectors.md. -/
def exParams : Params := { startMarker := 0x55AA#16, maxFrag := 977, seekRecheck := true }

/-- The same with SEEK_RECHECK = false (V-PUSH-5, V-PUSH-22). -/
def exParamsNoRecheck : Params := { startMarker := 0x55AA#16, maxFrag := 977, seekRecheck := false }

/-- Buffer contents: the bytes from index `a` on. -/
def listFrom : Nat → List Byte → Memory
  | _, [] => []
  | a, b :: bs => (a, b) :: listFrom (a + 1) bs

/-- An initialised block with LOCAL_ID = 2 in SeekStart, its next command sampled at time `t`. -/
def ready (t : Time) : State := { State.reset with initialized := true, localId := 2#32, now := t }

/-- The next state of a result, if it is one. -/
def nextOf : Result → Option State
  | .next s => some s
  | .fault _ => none
  | .refused _ => none

/-- The refusal of a result, if it is one. -/
def refusalOf : Result → Option Refusal
  | .next _ => none
  | .fault _ => none
  | .refused r => some r

/-! ### Well-formedness: each check refuses an ill-formed term -/

theorem test_wf_reserved_words : [0x001#10, 0x201#10, 0x3FF#10].all (fun w => !CmdWord.wellFormed w) = true := by decide
theorem test_wf_command_words :
    [0x000#10, 0x1AA#10, 0x100#10, 0x200#10, 0x300#10].all CmdWord.wellFormed = true := by decide
theorem test_wf_instructions : ([.nop, .push 0xFF#8, .reset, .init] : List Instr).all Instr.wellFormed = true := by decide
theorem test_wf_long_payload : payloadWellFormed (List.replicate 65536 0x00#8) = false := by
  rw [payloadWellFormed, List.length_replicate]
  decide
theorem test_wf_payload : payloadWellFormed [0x41#8, 0x42#8, 0x43#8] = true := by decide
theorem test_wf_max_frag_zero : Params.wellFormed { exParams with maxFrag := 0 } = false := by decide
theorem test_wf_max_frag_large : Params.wellFormed { exParams with maxFrag := 65536 } = false := by decide
theorem test_wf_params : Params.wellFormed exParams = true := by decide

/-! ### Decoding, from the words of 30_encoding.md section 1 (V-ENC-1 to V-ENC-9), bit by bit -/

theorem test_decode_nop : decode 0b0000000000#10 = .command .nop := by decide
theorem test_decode_push_aa : decode 0b0110101010#10 = .command (.push 0xAA#8) := by decide
theorem test_decode_push_00 : decode 0b0100000000#10 = .command (.push 0x00#8) := by decide
theorem test_decode_push_ff : decode 0b0111111111#10 = .command (.push 0xFF#8) := by decide
theorem test_decode_push_odd : decode 0b0100000001#10 = .command (.push 0x01#8) := by decide
theorem test_decode_reset : decode 0b1000000000#10 = .command .reset := by decide
theorem test_decode_init : decode 0b1100000000#10 = .command .init := by decide
theorem test_decode_reserved_nop : decode 0b0000000001#10 = .reserved := by decide
theorem test_decode_reserved_reset : decode 0b1000000001#10 = .reserved := by decide
theorem test_decode_reserved_init : decode 0b1111111111#10 = .reserved := by decide
theorem test_decode_table_word : decodeTableWord 16 0x1AA = some (.push 0xAA#8) := by decide
theorem test_decode_table_word_wide : decodeTableWord 16 0x400 = none := by decide

/-! ### The checksum and the wire format (V-CRC, V-WF) -/

theorem test_crc_catalogue :
    crc16 [0x31#8, 0x32#8, 0x33#8, 0x34#8, 0x35#8, 0x36#8, 0x37#8, 0x38#8, 0x39#8] = 0x4B37#16 := by decide +kernel

/-- V-CRC-13: with another marker the same header fails; the marker bytes are covered. -/
theorem test_crc_covers_marker :
    headerCalc { exParams with startMarker := 0x5AA5#16 }
      ([0x01, 0, 0, 0, 0x02, 0, 0, 0, 0, 0x02, 0x01, 0, 0x01, 0, 0, 0, 0, 0xE6, 0x33] : List Byte) = 0x3182#16 := by
  decide +kernel

/-- V-WF-9. -/
theorem test_encode_frame :
    encodeFrame exParams { src := 1#32, dst := 2#32, cls := 1#8, mtype := 0x10#8, total := 1#16, ackreq := 1#8, seq := 0#16 }
      [0x00#8] =
    ([0xAA, 0x55, 0x01, 0, 0, 0, 0x02, 0, 0, 0, 0x01, 0x10, 0x01, 0, 0x01, 0, 0, 0x01, 0, 0x6A, 0xE6, 0x00, 0xBF, 0x40] :
      List Byte) := by decide +kernel

/-- V-WF-3. -/
theorem test_fragment_count : (fragmentCount 978 977, fragmentCount 1954 977, fragmentCount 1955 977) = (2, 2, 3) := by decide

/-! ### One step of each command -/

/-- V-CTL-1. -/
theorem test_nop_before_init : nextOf (exec .nop State.reset) = some State.reset := by decide

/-- V-CTL-5. -/
theorem test_nop_keeps_progress :
    (nextOf (exec .nop { ready 99#32 with seekMatched := true, lastProgress := 7#32 })).map State.lastProgress = some 7#32 := by
  decide

/-- V-CTL-2. -/
theorem test_init_from_power_on :
    nextOf (step { State.reset with commands := [commandOf .init 100#32 2#32] }) =
      some { State.reset with
        initialized := true, localId := 2#32, lastProgress := 100#32, now := 100#32, cfgLocalId := 2#32 } := by decide

/-- V-CTL-8: INIT in the middle of a payload abandons the frame. -/
theorem test_init_abandons_frame :
    (nextOf (exec .init { ready 50#32 with cfgLocalId := 7#32, pstate := .readingPayload, hcount := 19, pcount := 1 })).map
      (fun t => (t.localId, t.pstate, t.hcount, t.pcount, t.lastProgress)) =
    some (7#32, PState.seekStart, 0, 0, 50#32) := by decide

/-- V-CTL-3. -/
theorem test_reset_before_init :
    refusalOf (step { State.reset with commands := [commandOf .reset 5#32 0#32] }) = some .notInit := by decide

/-- V-CTL-7. -/
theorem test_reset_clears_header :
    (nextOf (exec .reset { ready 1500#32 with pstate := .readingHeader, hcount := 8 })).map
      (fun t => (t.pstate, t.hcount, t.lastProgress)) = some (PState.seekStart, 0, 1500#32) := by decide

/-- V-PUSH-5: a repeated SM_LO, with and without the re-check. -/
theorem test_push_recheck :
    ((nextOf (pushWith exParams 0xAA#8 { ready 3#32 with seekMatched := true })).map State.seekMatched,
      (nextOf (pushWith exParamsNoRecheck 0xAA#8 { ready 3#32 with seekMatched := true })).map State.seekMatched) =
    (some true, some false) := by decide

/-- V-PUSH-16: the last byte of a frame with a wrong payload checksum. -/
theorem test_push_nack :
    (nextOf (pushWith exParams 0x40#8
      { ready 23#32 with
        pstate := .readingPayload
        hcount := 19
        pcount := 2
        hbuf := listFrom 0
          [0x01, 0, 0, 0, 0x02, 0, 0, 0, 0x01, 0x10, 0x01, 0, 0x01, 0, 0, 0x01, 0, 0x6A, 0xE6]
        pbuf := [(0, 0x00#8)]
        pcrcRx := [(0, 0x40#8)] })).map (fun t => (t.pstate, t.events)) =
    some (PState.seekStart, [.logPayCrc 0x40BF#16 0x4040#16 1#32, .nackReq 1#32]) := by decide +kernel

/-! ### Witnesses: states that meet the hypotheses of the statements

START_MARKER and MAX_FRAG have no known value, so the header bytes are those of an encoded header, whatever the marker. -/

/-- A header addressed to node 2. -/
def witHeader : Header := { src := 1#32, dst := 2#32, cls := 1#8, mtype := 0x10#8, total := 1#16, ackreq := 1#8, seq := 0#16 }

/-- The checksum of that header with length `len`. -/
def witSum (len : Half) : Half := crc16 (encodeHeader Config.params witHeader len)

/-- The first 18 bytes of HBUF for that header with length `len` and checksum `sum`. -/
def witFront (len sum : Half) : List Byte := headerFieldBytes witHeader len ++ [sum.extractLsb' 0 8]

/-- The 19 bytes of HBUF. -/
def witAll (len sum : Half) : List Byte := headerFieldBytes witHeader len ++ le16Bytes sum

theorem wit_front_last (len sum : Half) : witFront len sum ++ [sum.extractLsb' 8 8] = witAll len sum := rfl

theorem wit_views (len sum : Half) :
    viewHeader (witAll len sum) = witHeader ∧ viewLen (witAll len sum) = len ∧ viewHcrc (witAll len sum) = sum
      ∧ headerCalc Config.params (witAll len sum) = witSum len := views_of_fields Config.params witHeader len sum

theorem wit_dst (len sum : Half) : viewDst (witAll len sum) = 2#32 := congrArg Header.dst (wit_views len sum).1

theorem wit_check (len : Half) : headerCheck Config.params (witAll len (witSum len)) = true :=
  headerCheck_of_fields Config.params witHeader len

/-- MAX_FRAG lies in 1..65535. -/
theorem wit_max_frag : 1 ≤ Config.maxFrag ∧ Config.maxFrag ≤ 65535 := by
  have := Config.maxFragPred.isLt
  simp only [Config.maxFrag]
  omega

/-- LOCAL_ID = `id`, one byte before the end of the header. -/
def atHeaderEnd (id : NodeId) (len sum : Half) : State :=
  { ready 20#32 with localId := id, pstate := .readingHeader, hcount := 18, hbuf := listFrom 0 (witFront len sum) }

theorem wit_at_header_end (id : NodeId) (len sum : Half) : AtHeaderEnd (atHeaderEnd id len sum) (witFront len sum) :=
  ⟨rfl, rfl, rfl, rfl⟩

/-- In the payload of a frame with LEN = 1: `n` bytes counted, the payload byte `x` and the low checksum byte `lo` written. -/
def inPayload (n : Nat) (x lo : Byte) : State :=
  { ready 21#32 with
    pstate := .readingPayload
    hcount := 19
    hbuf := listFrom 0 (witAll 1#16 (witSum 1#16))
    pcount := n
    pbuf := [(0, x)]
    pcrcRx := [(0, lo)] }

theorem wit_in_payload (n : Nat) (x lo : Byte) : InPayload (inPayload n x lo) (witAll 1#16 (witSum 1#16)) :=
  ⟨rfl, rfl, rfl⟩

theorem wit_len_one : (viewLen (witAll 1#16 (witSum 1#16))).toNat = 1 := by
  rw [(wit_views _ _).2.1]
  decide

/-- Buffers of which no byte has been written, but the header bytes `bs` and the payload and checksum bytes `m`, `r`. -/
theorem wit_buffers {s : State} (h1 : Memory.wf s.hbuf = true) (h2 : Memory.below 19 s.hbuf = true)
    (h3 : Memory.wf s.pbuf = true) (h4 : Memory.below Config.maxFrag s.pbuf = true)
    (h5 : Memory.wf s.pcrcRx = true) (h6 : Memory.below 2 s.pcrcRx = true) : BuffersOk Config.params s
  | .hbuf => ⟨h1, h2⟩
  | .pbuf => ⟨h3, h4⟩
  | .pcrcRx => ⟨h5, h6⟩

theorem wit_below_one (x : Byte) : Memory.below Config.maxFrag [(0, x)] = true := by
  have := wit_max_frag
  simp [Memory.below]
  omega

/-- The invariant at power-on. -/
theorem wit_inv_reset : BlockInv State.reset := ⟨⟨rfl, rfl⟩, fun _ => ⟨rfl, rfl⟩, reset_buffers _⟩

/-- The invariant with one header byte missing. -/
theorem wit_inv_header (id : NodeId) (len sum : Half) : BlockInv (atHeaderEnd id len sum) := by
  refine ⟨show HeaderOk _ from ⟨rfl, Nat.le_refl 18, rfl, ?_⟩, ?_, wit_buffers rfl rfl rfl rfl rfl rfl⟩
  rotate_left
  · intro h
    cases h
  exact Memory.written_iff_slice.mpr ⟨witFront len sum, rfl⟩

/-- The invariant in a payload of one byte, at each of its three counts. -/
theorem wit_inv_payload {n : Nat} (hn : n ≤ 2) (x lo : Byte) : BlockInv (inPayload n x lo) := by
  have hm := wit_max_frag
  have hl := wit_len_one
  refine ⟨show PayloadOk _ _ from ⟨rfl, rfl, witAll 1#16 (witSum 1#16), rfl, ?_⟩, ?_,
    wit_buffers rfl rfl rfl (wit_below_one x) rfl rfl⟩
  rotate_left
  · intro h
    cases h
  refine ⟨by omega, by show _ ≤ Config.maxFrag; omega, by show n ≤ _; omega, wit_dst _ _, wit_check _, ?_, ?_⟩
  · exact (Memory.written_iff_slice.mpr ⟨[x], rfl⟩ : Memory.Written [(0, x)] 1).mono (by omega)
  · exact (Memory.written_iff_slice.mpr ⟨[lo], rfl⟩ : Memory.Written [(0, lo)] 1).mono (by show n - _ ≤ 1; omega)

/-! #### The command port -/

/-- StepPerformsDecodedCommand, both clauses: a PUSH word and a reserved word at the port. -/
theorem witness_StepPerformsDecodedCommand :
    (∃ (s : State) (c : Command) (rest : List Command), s.commands = c :: rest ∧ decode c.word = .command (.push 0xAA#8))
    ∧ ∃ (s : State) (c : Command) (rest : List Command), s.commands = c :: rest ∧ decode c.word = .reserved :=
  ⟨⟨State.reset.issue [⟨0x1AA#10, 5#32, 0#32⟩], ⟨0x1AA#10, 5#32, 0#32⟩, [], rfl, by decide⟩,
    ⟨State.reset.issue [⟨0x201#10, 5#32, 0#32⟩], ⟨0x201#10, 5#32, 0#32⟩, [], rfl, by decide⟩⟩

theorem witness_StepWithoutCommandChangesNothing : State.reset.commands = [] := rfl

/-- PlacedCommandWordIsPerformedNext, for a word of each command. -/
theorem witness_PlacedCommandWordIsPerformedNext :
    decodeTableWord 16 0x000 = some .nop ∧ decodeTableWord 16 0x1AA = some (.push 0xAA#8)
      ∧ decodeTableWord 16 0x200 = some .reset ∧ decodeTableWord 16 0x300 = some .init := by decide

/-- ReservedWordsAreRefused, second clause. -/
theorem witness_ReservedWordsAreRefused :
    (State.reset.issue [⟨0x001#10, 5#32, 0#32⟩]).commands = [⟨0x001#10, 5#32, 0#32⟩]
      ∧ (0x001#10).extractLsb' 8 2 ≠ 0b01#2 ∧ (0x001#10).extractLsb' 0 8 ≠ 0#8 := by decide

/-- CommandWordsRoundTrip, second clause. -/
theorem witness_CommandWordsRoundTrip : decode 0x1FF#10 = .command (.push 0xFF#8) := by decide

/-! #### NOP, INIT, RESET, refusals -/

/-- InitInstallsIdentifierAndClearsParse, second clause in the middle of a payload, and third clause. -/
theorem witness_InitInstallsIdentifierAndClearsParse :
    (∃ t, exec .init (inPayload 1 0x41#8 0x00#8) = .next t)
      ∧ ∃ t, exec .reset (inPayload 1 0x41#8 0x00#8) = .next t ∧ Instr.reset ≠ .init := ⟨⟨_, rfl⟩, _, rfl, by decide⟩

/-- ResetClearsParse, and RepeatedResetChangesOnlyLastProgress: RESET in the middle of a header. -/
theorem witness_ResetClearsParse : (atHeaderEnd 2#32 0#16 0#16).initialized = true := rfl

theorem witness_RepeatedResetChangesOnlyLastProgress : ∃ t, exec .reset (atHeaderEnd 2#32 0#16 0#16) = .next t :=
  ⟨_, rfl⟩

/-- RefusalsAreReservedOrBeforeInit: the three refused commands, and one that is not refused. -/
theorem witness_RefusalsAreReservedOrBeforeInit :
    (∃ (s : State) (c : Command), s.commands = [c] ∧ step s = .refused .reserved ∧ s.initialized = true)
    ∧ (∃ (s : State) (c : Command), s.commands = [c] ∧ decode c.word = .command .reset ∧ step s = .refused .notInit)
    ∧ (∃ (s : State) (c : Command), s.commands = [c] ∧ decode c.word = .command (.push 0xAA#8) ∧ step s = .refused .notInit)
    ∧ ∃ (s t : State) (c : Command), s.commands = [c] ∧ s.initialized = false ∧ step s = .next t :=
  ⟨⟨(ready 0#32).issue [⟨0x201#10, 5#32, 0#32⟩], _, rfl, rfl, rfl⟩,
    ⟨State.reset.issue [⟨0x200#10, 5#32, 0#32⟩], _, rfl, by decide, rfl⟩,
    ⟨State.reset.issue [⟨0x1AA#10, 5#32, 0#32⟩], _, rfl, by decide, rfl⟩,
    ⟨State.reset.issue [⟨0x300#10, 5#32, 2#32⟩], _, _, rfl, rfl, rfl⟩⟩

/-! #### PUSH in SeekStart -/

theorem witness_SeekLowLooksForFirstMarkerByte :
    (ready 1#32).initialized = true ∧ (ready 1#32).pstate = .seekStart ∧ (ready 1#32).seekMatched = false :=
  ⟨rfl, rfl, rfl⟩

/-- SeekHighLooksForSecondMarkerByte, with a byte for each of its three cases (V-PUSH-4, V-PUSH-5, V-PUSH-6). -/
theorem witness_SeekHighLooksForSecondMarkerByte :
    (let s := { ready 1#32 with seekMatched := true };
      s.initialized = true ∧ s.pstate = .seekStart ∧ s.seekMatched = true)
    ∧ 0x55#8 = smHi exParams
    ∧ (0xAA#8 ≠ smHi exParams ∧ exParams.seekRecheck = true ∧ 0xAA#8 = smLo exParams)
    ∧ (0x00#8 ≠ smHi exParams ∧ 0x00#8 ≠ smLo exParams)
    ∧ (0xAA#8 ≠ smHi exParamsNoRecheck ∧ exParamsNoRecheck.seekRecheck = false) := by decide

/-! #### PUSH in ReadingHeader -/

/-- HeaderByteIsStoredAndCounted: the first, the 18th and the 19th byte. -/
theorem witness_HeaderByteIsStoredAndCounted :
    (let s := { ready 1#32 with pstate := .readingHeader };
      s.initialized = true ∧ s.pstate = .readingHeader ∧ s.hcount < 18)
    ∧ (let s := { ready 1#32 with pstate := .readingHeader, hcount := 17 };
      s.initialized = true ∧ s.pstate = .readingHeader ∧ s.hcount < 18)
    ∧ (let s := atHeaderEnd 2#32 0#16 0#16;
      s.initialized = true ∧ s.pstate = .readingHeader ∧ s.hcount = 18
        ∧ Memory.slice s.hbuf 0 18 = some (witFront 0#16 0#16)) :=
  ⟨⟨rfl, rfl, by decide⟩, ⟨rfl, rfl, by decide⟩, rfl, rfl, rfl, rfl⟩

/-- HeaderChecksRunInOrder: the end of a header, whatever its length and checksum. -/
theorem witness_HeaderChecksRunInOrder (len sum : Half) :
    AtHeaderEnd (atHeaderEnd 2#32 len sum) (witFront len sum) := wit_at_header_end _ _ _

theorem witness_HeaderCrcMismatchIsLogged :
    AtHeaderEnd (atHeaderEnd 2#32 0#16 (~~~ witSum 0#16)) (witFront 0#16 (~~~ witSum 0#16))
    ∧ crc16 ([smLo Config.params, smHi Config.params]
        ++ (witFront 0#16 (~~~ witSum 0#16) ++ [(~~~ witSum 0#16).extractLsb' 8 8]).take 17)
      ≠ viewHcrc (witFront 0#16 (~~~ witSum 0#16) ++ [(~~~ witSum 0#16).extractLsb' 8 8]) := by
  refine ⟨wit_at_header_end _ _ _, ?_⟩
  rw [wit_front_last, (wit_views _ _).2.2.1]
  have h : crc16 ([smLo Config.params, smHi Config.params] ++ (witAll 0#16 (~~~ witSum 0#16)).take 17) = witSum 0#16 :=
    (wit_views 0#16 (~~~ witSum 0#16)).2.2.2
  rw [h]
  intro e
  have := congrArg (fun v : Half => v.getLsbD 0) e
  simp at this

/-- ForeignHeaderIsDroppedSilently, for any length. -/
theorem witness_ForeignHeaderIsDroppedSilently (len : Half) :
    AtHeaderEnd (atHeaderEnd 7#32 len (witSum len)) (witFront len (witSum len))
    ∧ headerCheck Config.params (witFront len (witSum len) ++ [(witSum len).extractLsb' 8 8]) = true
    ∧ viewDst (witFront len (witSum len) ++ [(witSum len).extractLsb' 8 8])
        ≠ (atHeaderEnd 7#32 len (witSum len)).localId := by
  refine ⟨wit_at_header_end _ _ _, wit_check len, ?_⟩
  rw [wit_front_last, wit_dst]
  show (2#32 : NodeId) ≠ 7#32
  decide

/-- OverlongHeaderGivesLogLen, first clause (V-PUSH-14: LEN = 978 with MAX_FRAG = 977). -/
theorem witness_OverlongHeaderGivesLogLen :
    let bs : List Byte := [0x01, 0, 0, 0, 0x02, 0, 0, 0, 0x01, 0x10, 0x01, 0, 0x01, 0, 0, 0xD2, 0x03, 0x77]
    let s := { ready 20#32 with pstate := .readingHeader, hcount := 18, hbuf := listFrom 0 bs }
    AtHeaderEnd s bs ∧ headerCheck exParams (bs ++ [0xD7#8]) = true ∧ viewDst (bs ++ [0xD7#8]) = s.localId
      ∧ exParams.maxFrag < (viewLen (bs ++ [0xD7#8])).toNat :=
  ⟨⟨rfl, rfl, rfl, rfl⟩, by decide +kernel, by decide +kernel, by decide +kernel⟩

/-- OverlongHeaderGivesLogLen, second clause, on every build whose MAX_FRAG is not the largest a length can say. -/
theorem witness_OverlongHeaderGivesLogLen_machine (h : Config.maxFrag < 65535) :
    AtHeaderEnd (atHeaderEnd 2#32 65535#16 (witSum 65535#16)) (witFront 65535#16 (witSum 65535#16))
    ∧ headerCheck Config.params (witAll 65535#16 (witSum 65535#16)) = true
    ∧ viewDst (witAll 65535#16 (witSum 65535#16)) = (atHeaderEnd 2#32 65535#16 (witSum 65535#16)).localId
    ∧ Config.maxFrag < (viewLen (witAll 65535#16 (witSum 65535#16))).toNat := by
  refine ⟨wit_at_header_end _ _ _, wit_check _, wit_dst _ _, ?_⟩
  rw [(wit_views _ _).2.1]
  exact h

theorem witness_EmptyFrameIsDispatchedAtOnce :
    AtHeaderEnd (atHeaderEnd 2#32 0#16 (witSum 0#16)) (witFront 0#16 (witSum 0#16))
    ∧ headerCheck Config.params (witAll 0#16 (witSum 0#16)) = true
    ∧ viewDst (witAll 0#16 (witSum 0#16)) = (atHeaderEnd 2#32 0#16 (witSum 0#16)).localId
    ∧ viewLen (witAll 0#16 (witSum 0#16)) = 0#16 :=
  ⟨wit_at_header_end _ _ _, wit_check _, wit_dst _ _, (wit_views _ _).2.1⟩

/-- AddressedHeaderEntersPayload at every length from 1 to MAX_FRAG, so at both ends. -/
theorem witness_AddressedHeaderEntersPayload (n : Nat) (h1 : 1 ≤ n) (h2 : n ≤ Config.maxFrag) :
    let len := BitVec.ofNat 16 n
    AtHeaderEnd (atHeaderEnd 2#32 len (witSum len)) (witFront len (witSum len))
    ∧ headerCheck Config.params (witAll len (witSum len)) = true
    ∧ viewDst (witAll len (witSum len)) = (atHeaderEnd 2#32 len (witSum len)).localId
    ∧ 1 ≤ (viewLen (witAll len (witSum len))).toNat ∧ (viewLen (witAll len (witSum len))).toNat ≤ Config.maxFrag := by
  have hm := wit_max_frag
  have hn : (BitVec.ofNat 16 n).toNat = n := by
    rw [BitVec.toNat_ofNat]
    omega
  refine ⟨wit_at_header_end _ _ _, wit_check _, wit_dst _ _, ?_, ?_⟩
  · rw [(wit_views _ _).2.1, hn]
    exact h1
  · rw [(wit_views _ _).2.1, hn]
    exact h2

/-! #### PUSH in ReadingPayload -/

/-- PayloadByteIsStoredAndCounted: the only byte of a payload of one byte. -/
theorem witness_PayloadByteIsStoredAndCounted :
    InPayload (inPayload 0 0x41#8 0x00#8) (witAll 1#16 (witSum 1#16))
    ∧ (inPayload 0 0x41#8 0x00#8).pcount < (viewLen (witAll 1#16 (witSum 1#16))).toNat
    ∧ (viewLen (witAll 1#16 (witSum 1#16))).toNat ≤ Config.maxFrag := by
  rw [wit_len_one]
  exact ⟨wit_in_payload _ _ _, Nat.zero_lt_one, wit_max_frag.1⟩

theorem witness_ChecksumLowByteIsStored :
    InPayload (inPayload 1 0x41#8 0x00#8) (witAll 1#16 (witSum 1#16))
    ∧ (inPayload 1 0x41#8 0x00#8).pcount = (viewLen (witAll 1#16 (witSum 1#16))).toNat := by
  rw [wit_len_one]
  exact ⟨wit_in_payload _ _ _, rfl⟩

/-- ChecksumHighByteCompletesFrame, for any payload byte and any low checksum byte. -/
theorem witness_ChecksumHighByteCompletesFrame (x lo : Byte) :
    AtPayloadEnd (inPayload 2 x lo) (witAll 1#16 (witSum 1#16)) [x] lo := by
  refine ⟨wit_in_payload _ _ _, ?_, ?_, rfl⟩
  · rw [wit_len_one]
    rfl
  · rw [wit_len_one]
    rfl

/-- MatchingPayloadIsDispatched (V-CRC-15: the checksum of the byte 00 is 0x40BF). -/
theorem witness_MatchingPayloadIsDispatched :
    AtPayloadEnd (inPayload 2 0x00#8 0xBF#8) (witAll 1#16 (witSum 1#16)) [0x00#8] 0xBF#8
    ∧ crc16 [0x00#8] = le16 0xBF#8 0x40#8 :=
  ⟨witness_ChecksumHighByteCompletesFrame _ _, by decide +kernel⟩

/-- PayloadCrcMismatchIsNacked (V-CRC-16). -/
theorem witness_PayloadCrcMismatchIsNacked :
    AtPayloadEnd (inPayload 2 0x00#8 0x40#8) (witAll 1#16 (witSum 1#16)) [0x00#8] 0x40#8
    ∧ crc16 [0x00#8] ≠ le16 0x40#8 0x40#8 :=
  ⟨witness_ChecksumHighByteCompletesFrame _ _, by decide +kernel⟩

/-- What the last byte of an empty frame does; a frame record without payload. -/
theorem wit_push_empty :
    exec (.push ((witSum 0#16).extractLsb' 8 8)) (atHeaderEnd 2#32 0#16 (witSum 0#16)) =
      .next (dispatchEmpty (witAll 0#16 (witSum 0#16))
        (((atHeaderEnd 2#32 0#16 (witSum 0#16)).touch.setBuf .hbuf
          (Memory.write (listFrom 0 (witFront 0#16 (witSum 0#16))) 18 ((witSum 0#16).extractLsb' 8 8))).setHcount 19)) := by
  rw [exec_push, pushWith_header rfl rfl, headerByte_last (bs := witFront 0#16 (witSum 0#16)) rfl rfl, wit_front_last]
  have hm := wit_max_frag
  rw [headerComplete, wit_check, wit_dst, lengthExceeds, (wit_views _ _).2.1]
  rfl

/-- What the last byte of a frame of one payload byte does when the checksum matches. -/
theorem wit_push_match :
    exec (.push 0x40#8) (inPayload 2 0x00#8 0xBF#8) =
      .next (payloadAccept (witAll 1#16 (witSum 1#16)) [0x00#8] [0xBF#8, 0x40#8]
        (((inPayload 2 0x00#8 0xBF#8).touch.setBuf .pcrcRx (Memory.write [(0, 0xBF#8)] 1 0x40#8)).setPcount 3)) := by
  have h := payloadStore_high (p := Config.params) (b := 0x40#8) (s := (inPayload 2 0x00#8 0xBF#8).touch)
    (hb := witAll 1#16 (witSum 1#16)) (lo := 0xBF#8) (payload := [0x00#8])
    (by rw [wit_len_one]; rfl) (by rw [wit_len_one]; rfl) rfl
  have hc : payloadCheck [0x00#8] [0xBF#8, 0x40#8] = true := by decide +kernel
  rw [exec_push, pushWith_payload (hb := witAll 1#16 (witSum 1#16)) rfl rfl rfl, h, hc, wit_len_one]
  rfl

/-- FrameRecordFieldsAreBufferViews, with LEN = 0 and with LEN = 1. -/
theorem witness_FrameRecordFieldsAreBufferViews :
    (∃ (s t : State) (b : Byte) (r : FrameRecord), BlockInv s ∧ exec (.push b) s = .next t
      ∧ t.events = s.events ++ [.frameOut r] ∧ r.len = 0#16)
    ∧ ∃ (s t : State) (b : Byte) (r : FrameRecord), BlockInv s ∧ exec (.push b) s = .next t
      ∧ t.events = s.events ++ [.frameOut r] ∧ r.len ≠ 0#16 := by
  refine ⟨⟨_, _, _, _, wit_inv_header 2#32 0#16 (witSum 0#16), wit_push_empty, rfl, (wit_views _ _).2.1⟩,
    ⟨_, _, _, _, wit_inv_payload (Nat.le_refl 2) 0x00#8 0xBF#8, wit_push_match, rfl, ?_⟩⟩
  show viewLen (witAll 1#16 (witSum 1#16)) ≠ 0#16
  rw [(wit_views _ _).2.1]
  decide

/-! #### Rules over all commands, and invariants -/

/-- StepHasExactlyTwoOutcomes and the other statements over consistent states: one in each parser state. -/
theorem witness_StepHasExactlyTwoOutcomes :
    BlockInv State.reset ∧ BlockInv (atHeaderEnd 2#32 0#16 (witSum 0#16)) ∧ BlockInv (inPayload 2 0x00#8 0xBF#8) :=
  ⟨wit_inv_reset, wit_inv_header _ _ _, wit_inv_payload (Nat.le_refl 2) _ _⟩

theorem witness_PushNeverBlocks :
    BlockInv (inPayload 2 0x00#8 0xBF#8) ∧ (inPayload 2 0x00#8 0xBF#8).initialized = true :=
  ⟨wit_inv_payload (Nat.le_refl 2) _ _, rfl⟩

/-- A next state for each of the four commands: LastProgressIsStampedByAllButNop, StepEmitsOneOfFiveEventLists,
LocalIdChangesOnlyThroughInit. -/
theorem witness_ExecAnswersNext :
    (∃ t, exec .nop State.reset = .next t) ∧ (∃ t, exec .init State.reset = .next t)
      ∧ (∃ t, exec .reset (ready 1#32) = .next t)
      ∧ (∃ t, exec (.push 0x13#8) (ready 1#32) = .next t)
      ∧ ∃ t, exec (.push 0x40#8) (inPayload 2 0x00#8 0xBF#8) = .next t :=
  ⟨⟨_, rfl⟩, ⟨_, rfl⟩, ⟨_, rfl⟩, ⟨_, rfl⟩, ⟨_, wit_push_match⟩⟩

/-- BuffersChangeOnlyAtTheCountedByte: a command that is no PUSH, and a PUSH for each place a byte can go: none, the first and the
19th header byte, a payload byte, the low and the high checksum byte. -/
theorem witness_BuffersChangeOnlyAtTheCountedByte :
    (∃ t, exec .reset (inPayload 1 0x41#8 0x00#8) = .next t ∧ ∀ b, Instr.reset ≠ .push b)
      ∧ (∃ t, exec (.push 0xAA#8) (ready 1#32) = .next t)
      ∧ (∃ t, exec (.push 0x01#8) { ready 1#32 with pstate := .readingHeader } = .next t)
      ∧ (∃ t, exec (.push ((witSum 0#16).extractLsb' 8 8)) (atHeaderEnd 2#32 0#16 (witSum 0#16)) = .next t)
      ∧ (∃ t, exec (.push 0x41#8) (inPayload 0 0x00#8 0x00#8) = .next t
        ∧ (inPayload 0 0x00#8 0x00#8).pcount < lenOf (inPayload 0 0x00#8 0x00#8))
      ∧ (∃ t, exec (.push 0xBF#8) (inPayload 1 0x00#8 0x00#8) = .next t)
      ∧ ∃ t, exec (.push 0x40#8) (inPayload 2 0x00#8 0xBF#8) = .next t := by
  refine ⟨⟨_, rfl, fun b h => Instr.noConfusion h⟩, ⟨_, rfl⟩, ⟨_, by rw [exec_push, pushWith_header rfl rfl, headerByte_of_lt (by decide)]⟩,
    ⟨_, wit_push_empty⟩, ?_, ?_,
    ⟨_, wit_push_match⟩⟩
  · have h0 : 0 < (viewLen (witAll 1#16 (witSum 1#16))).toNat := by rw [wit_len_one]; exact Nat.zero_lt_one
    refine ⟨_, by rw [exec_push, pushWith_payload (hb := witAll 1#16 (witSum 1#16)) rfl rfl rfl,
      payloadStore_of_lt (p := Config.params) (s := (inPayload 0 0x00#8 0x00#8).touch) h0 wit_max_frag.1], ?_⟩
    rw [lenOf_eq (hb := witAll 1#16 (witSum 1#16)) rfl]
    exact h0
  · have h1 : (inPayload 1 0x00#8 0x00#8).touch.pcount = (viewLen (witAll 1#16 (witSum 1#16))).toNat := wit_len_one.symm
    exact ⟨_, by rw [exec_push, pushWith_payload (hb := witAll 1#16 (witSum 1#16)) rfl rfl rfl, payloadStore_low h1]⟩

/-- InitializedRecordsFirstInit: before and after INIT. -/
theorem witness_InitializedRecordsFirstInit :
    State.reset.initialized = false ∧ (ready 1#32).initialized = true
      ∧ ∃ t, exec .reset (ready 1#32) = .next t ∧ Instr.reset ≠ .init :=
  ⟨rfl, rfl, _, rfl, by decide⟩

/-- StepTakesExactlyOneCommand and StepKeepsInvariant: a step that performs a waiting command. -/
theorem witness_StepKeepsInvariant :
    ∃ s t : State, BlockInv s ∧ s.commands ≠ [] ∧ step s = .next t :=
  ⟨State.reset.issue [commandOf .init 100#32 2#32], _, ⟨⟨rfl, rfl⟩, fun _ => ⟨rfl, rfl⟩, reset_buffers _⟩,
    by decide, rfl⟩

/-- ChunkingHasNoEffect: a first chunk of two commands. -/
theorem witness_ChunkingHasNoEffect :
    ∃ t, Host.Core.run Sys2Proof.core [commandOf .init 100#32 2#32, commandOf .nop 101#32 0#32].length
      { State.reset with commands := [commandOf .init 100#32 2#32, commandOf .nop 101#32 0#32] } = .next t := ⟨_, rfl⟩

/-- EndOfFrameResynchronises: the last byte of a frame. -/
theorem witness_EndOfFrameResynchronises :
    ∃ (s t : State) (b : Byte), exec (.push b) s = .next t ∧ s.pstate ≠ .seekStart ∧ t.pstate = .seekStart :=
  ⟨_, _, _, wit_push_match, by show PState.readingPayload ≠ _; decide, rfl⟩

/-- StaleBytesAreUnobservable: two states of which one holds bytes of an earlier frame; the next command is a PUSH, then a
reserved word. -/
theorem witness_StaleBytesAreUnobservable :
    (let s := (ready 1#32).issue [commandOf (.push 0x13#8) 5#32 0#32];
      BlockInv s ∧ SameLive s { s with hbuf := [(0, 0x07#8)], pbuf := [(0, 0x41#8)], pcrcRx := [(1, 0x00#8)] }
        ∧ ∃ t, step s = .next t)
    ∧ (let s := (ready 1#32).issue [⟨0x201#10, 5#32, 0#32⟩];
      BlockInv s ∧ SameLive s { s with hbuf := [(0, 0x07#8)] } ∧ step s = .refused .reserved) := by
  refine ⟨⟨⟨⟨rfl, rfl⟩, ?_, reset_buffers _⟩, ⟨rfl, ?_, ?_, ?_⟩, _, step_push rfl rfl⟩,
    ⟨⟨⟨rfl, rfl⟩, ?_, reset_buffers _⟩, ⟨rfl, ?_, fun _ _ _ => rfl, fun _ _ => rfl⟩, rfl⟩⟩
  · exact fun h => nomatch (h : true = false)
  · exact fun a h => absurd h (Nat.not_lt_zero a)
  · exact fun a h => absurd h (Nat.not_lt_zero a)
  · exact fun a h => absurd h (Nat.not_lt_zero _)
  · exact fun h => nomatch (h : true = false)
  · exact fun a h => absurd h (Nat.not_lt_zero a)

/-- PowerOnContentsAreNeverRead: a run that goes on and one that is refused. -/
theorem witness_PowerOnContentsAreNeverRead :
    (∃ t, Host.Core.run Sys2Proof.core 1 { State.reset with commands := [commandOf .init 100#32 2#32] } = .next t)
      ∧ Host.Core.run Sys2Proof.core 1 { State.reset with commands := [commandOf .reset 5#32 0#32] } = .refused .notInit :=
  ⟨⟨_, rfl⟩, rfl⟩

theorem witness_PreInitRegisterValuesAreUnobservable : State.reset.initialized = false := rfl

/-! #### Whole frames -/

/-- The commands of FEED are PUSHes of its bytes. -/
theorem feed_pushes (bs : List Byte) (t : Time) : PushesOf (feed bs t) bs := by
  induction bs generalizing t with
  | nil => rfl
  | cons b bs ih =>
    have := ih (t + 1)
    unfold PushesOf at this ⊢
    exact congrArg (encode (.push b) :: ·) this

/-- EncodedFrameIsReceived: an empty payload, and payloads of every length up to MAX_FRAG. -/
theorem witness_EncodedFrameIsReceived (n : Nat) (h : n ≤ Config.maxFrag) :
    let payload := List.replicate n 0x41#8
    let cs := frameCommands Config.params witHeader payload 200#32
    let s := (ready 1#32).issue cs
    AtFrameStart s ∧ witHeader.dst = s.localId ∧ payload.length ≤ Config.maxFrag ∧ s.commands = cs ++ []
      ∧ PushesOf cs (encodeFrame Config.params witHeader payload) := by
  refine ⟨⟨rfl, rfl, rfl⟩, rfl, ?_, ?_, feed_pushes _ _⟩
  · rw [List.length_replicate]
    exact h
  · exact (List.append_nil _).symm

/-- ForeignHeaderEmitsNothing: a frame to node 3 at node 2, of any length. -/
theorem witness_ForeignHeaderEmitsNothing (len : Half) :
    let h := { witHeader with dst := 3#32 }
    let cs := feed (withChecksum (encodeHeader Config.params h len)) 600#32
    let s := (ready 1#32).issue cs
    AtFrameStart s ∧ h.dst ≠ s.localId ∧ s.commands = cs ++ []
      ∧ PushesOf cs (withChecksum (encodeHeader Config.params h len)) :=
  ⟨⟨rfl, rfl, rfl⟩, by show (3#32 : NodeId) ≠ 2#32; decide, (List.append_nil _).symm, feed_pushes _ _⟩

/-- CorruptedPayloadIsNackedOnce (V-PUSH-16). -/
theorem witness_CorruptedPayloadIsNackedOnce :
    let bytes := withChecksum (encodeHeader Config.params witHeader (BitVec.ofNat 16 [0x00#8].length)) ++ [0x00#8] ++ [0x40#8, 0x40#8]
    let cs := feed bytes 400#32
    let s := (ready 1#32).issue cs
    AtFrameStart s ∧ witHeader.dst = s.localId ∧ 1 ≤ [0x00#8].length ∧ [0x00#8].length ≤ Config.maxFrag
      ∧ crc16 [0x00#8] ≠ le16 0x40#8 0x40#8 ∧ s.commands = cs ++ [] ∧ PushesOf cs bytes :=
  ⟨⟨rfl, rfl, rfl⟩, rfl, Nat.le_refl 1, wit_max_frag.1, by decide +kernel, (List.append_nil _).symm, feed_pushes _ _⟩

/-! #### The checksum, the wire functions, the read port and the guard -/

theorem witness_CrcDetectsOneChangedByte : (0x42#8 : Byte) ≠ 0x43#8 := by decide

/-- PayloadChecksumPresentIffPayload, both clauses. -/
theorem witness_PayloadChecksumPresentIffPayload :
    [0x41#8].length > 0 ∧ ([] : List Byte).length = 0 := by decide

/-- EncodeFrameLayout: the longest payload. -/
theorem witness_EncodeFrameLayout : (List.replicate 65535 0x00#8).length ≤ 65535 :=
  Nat.le_of_eq List.length_replicate

/-- FragmentCountIsCeilingAtLeastOne: k = 3 holds 2500 bytes with M = 977. -/
theorem witness_FragmentCountIsCeilingAtLeastOne : 1 ≤ 977 ∧ 1 ≤ 3 ∧ 2500 ≤ 3 * 977 ∧ fragmentCount 2500 977 ≤ 65535 := by decide

/-- FragmentSlicesCoverPayload (W-2), with an index inside the last slice, and fragments of one byte. -/
theorem witness_FragmentSlicesCoverPayload :
    let payload := List.replicate 2500 0x41#8
    1 ≤ 977 ∧ fragmentCount payload.length 977 = 3 ∧ 545 < (fragmentSlice payload 977 2).length ∧ 1 ≤ payload.length
      ∧ fragmentCount [0x41#8, 0x42#8].length 1 = 2
      ∧ (fragmentHeader witHeader payload.length 977 2).isSome = true := by
  have h : (fragmentSlice (List.replicate 2500 0x41#8) 977 2).length = 546 := by
    rw [fragmentSlice, List.length_take, List.length_drop, List.length_replicate]
    decide
  refine ⟨by decide, ?_, ?_, ?_, by decide, ?_⟩
  · rw [List.length_replicate]
    decide
  · rw [h]
    decide
  · rw [List.length_replicate]
    decide
  · rw [List.length_replicate]
    decide

/-- LastProgressReadPort, both clauses. -/
theorem witness_LastProgressReadPort : (ready 1#32).initialized = true ∧ State.reset.initialized = false := ⟨rfl, rfl⟩

/-- StaleSessionGuardIssuesReset: just past STALE_LIMIT, exactly at it, across the wrap of `now`, and in the idle role. -/
theorem witness_StaleSessionGuardIssuesReset :
    let k : KernelParams := { timeout := 250, maxRetries := 1 }
    let s := { ready 1#32 with lastProgress := 1000#32 }
    let w := { ready 1#32 with lastProgress := 0xFFFFFFFF#32 }
    s.initialized = true
      ∧ (Role.sending ≠ .idle ∧ k.timeout * (k.maxRetries + 1) < (1501#32 - s.lastProgress).toNat)
      ∧ (1500#32 - s.lastProgress).toNat ≤ k.timeout * (k.maxRetries + 1)
      ∧ (Role.receiving ≠ .idle ∧ k.timeout * (k.maxRetries + 1) < (500#32 - w.lastProgress).toNat) := by decide

end Sys2Proof.Tests
end

/-! ### What a step answers (spec 00_scope.md R14)

Two facts meet here. Whatever answers a next state only appends events, in every state. From a state that meets R31 every
accepted command answers a next state: the counters point into their arrays and what is read back has been written. -/

namespace Sys2Proof.Machine

/-! #### Events are only appended -/

/-- The checks of a complete header append at most their one event (R130-R134). -/
theorem headerComplete_events_prefix (p : Params) (hb : List Byte) (s : State) :
    s.events <+: (headerComplete p hb s).events := by
  obtain ⟨-, h⟩ | ⟨-, -, h⟩ | ⟨-, -, -, h⟩ | ⟨-, -, -, h⟩ | ⟨-, -, -, -, h⟩ := headerComplete_cases p hb s <;> rw [h]
  · exact List.prefix_append ..
  · exact List.prefix_append ..
  · exact List.prefix_append ..
  · exact List.prefix_append ..
  · exact List.prefix_rfl

/-- Only a completed header and a completed payload append events; every other byte leaves them as they are (R126-R139). -/
theorem pushWith_events_prefix {p : Params} {b : Byte} {s t : State} (h : pushWith p b s = .next t) :
    s.events <+: t.events := by
  obtain ⟨-, ⟨-, -, rfl⟩ | ⟨-, -, rfl | rfl | rfl⟩ | ⟨-, -, rfl⟩ | ⟨-, -, bs, -, rfl⟩ | ⟨-, hb, -, -, -, rfl⟩
    | ⟨-, hb, -, -, rfl⟩ | ⟨-, hb, pl, lo, -, -, -, -, ⟨-, rfl⟩ | ⟨-, rfl⟩⟩⟩ := push_cases h
  iterate 5 exact List.prefix_rfl
  · exact headerComplete_events_prefix p (bs ++ [b])
      ((s.touch.setBuf .hbuf (Memory.write s.hbuf 18 b)).setHcount 19)
  iterate 2 exact List.prefix_rfl
  iterate 2 exact List.prefix_append ..

/-- RESET answers a next state exactly after INIT (R123). -/
theorem exec_reset_next {s t : State} :
    exec .reset s = .next t ↔ s.initialized = true ∧ t = s.resetParse.touch := by
  cases hi : s.initialized with
  | true => simp [exec_reset hi, eq_comm]
  | false => simp [exec_reset_not_init hi]

theorem exec_events_prefix {i : Instr} {s t : State} (h : exec i s = .next t) : s.events <+: t.events := by
  cases i with
  | nop => cases h; exact List.prefix_rfl
  | push b => exact pushWith_events_prefix h
  | reset =>
    obtain ⟨-, rfl⟩ := exec_reset_next.mp h
    exact List.prefix_rfl
  | init => cases h; exact List.prefix_rfl

theorem step_events_prefix {s t : State} (h : step s = .next t) : s.events <+: t.events := by
  obtain ⟨-, rfl⟩ | ⟨c, rest, i, -, -, he⟩ := step_next h
  · exact List.prefix_rfl
  · exact exec_events_prefix (s := s.present c rest) he

/-! #### From a consistent state every accepted command answers a next state -/

/-- HCOUNT ≤ 18 is inside HBUF, and at the 19th byte the 18 before it have been written (R128). -/
theorem headerByte_answers {p : Params} {s : State} (b : Byte) (h : HeaderOk s) :
    ∃ t, headerByte p b s = .next t := by
  obtain ⟨-, hle, -, hw⟩ := h
  obtain hlt | heq := Nat.lt_or_eq_of_le hle
  · exact ⟨_, headerByte_of_lt hlt⟩
  · obtain ⟨bs, hbs⟩ := Memory.written_iff_slice.mp hw
    exact ⟨_, headerByte_last heq (heq ▸ hbs)⟩

/-- PCOUNT ≤ LEN + 1: a payload byte, the low checksum byte, or the high one, at which all that is checked has been written
(R135-R137). -/
theorem payloadStore_answers {p : Params} {hb : List Byte} {s : State} (b : Byte) (h : PayloadOkFor p hb s) :
    ∃ t, payloadStore p hb b s = .next t := by
  obtain ⟨-, hmax, hle, -, -, hpbuf, hrx⟩ := h
  obtain hlt | heq | heq : s.pcount < (viewLen hb).toNat ∨ s.pcount = (viewLen hb).toNat
      ∨ s.pcount = (viewLen hb).toNat + 1 := by omega
  · exact ⟨_, payloadStore_of_lt hlt (by omega)⟩
  · exact ⟨_, payloadStore_low heq⟩
  · obtain ⟨pl, hpl⟩ := Memory.written_iff_slice.mp (hpbuf.mono (k := (viewLen hb).toNat) (by omega))
    obtain ⟨lo, hlo⟩ := Option.isSome_iff_exists.mp (hrx 0 (by omega))
    exact ⟨_, payloadStore_high heq hpl hlo⟩

/-- An accepted PUSH completes in its own step, whatever the byte (R125, R145). -/
theorem pushWith_answers {p : Params} {s : State} (b : Byte) (hi : s.initialized = true) (h : PhaseOk p s) :
    ∃ t, pushWith p b s = .next t := by
  unfold PhaseOk at h
  cases hp : s.pstate with
  | seekStart => exact ⟨_, pushWith_seek hi hp⟩
  | readingHeader =>
    simp only [hp] at h
    rw [pushWith_header hi hp]
    exact headerByte_answers (s := s.touch) b h
  | readingPayload =>
    simp only [hp] at h
    obtain ⟨-, -, hb, hhb, hok⟩ := h
    rw [pushWith_payload hi hp hhb]
    exact payloadStore_answers (s := s.touch) b hok

/-- A command answers a next state, or is refused before INIT (R120-R125). -/
theorem exec_answers {s : State} (i : Instr) (h : PhaseOk Config.params s) :
    (∃ t, exec i s = .next t) ∨ exec i s = .refused .notInit := by
  cases i with
  | nop => exact .inl ⟨_, exec_nop s⟩
  | init => exact .inl ⟨_, exec_init s⟩
  | reset =>
    cases hi : s.initialized with
    | true => exact .inl ⟨_, exec_reset hi⟩
    | false => exact .inr (exec_reset_not_init hi)
  | push b =>
    cases hi : s.initialized with
    | true => exact .inl (pushWith_answers b hi h)
    | false => exact .inr (pushWith_refused.mpr ⟨hi, rfl⟩)

/-- Presenting a command touches no parse register and no buffer. -/
theorem PhaseOk.present {p : Params} {s : State} (h : PhaseOk p s) (c : Command) (rest : List Command) :
    PhaseOk p (s.present c rest) := h

/-- The step from a consistent state answers a next state or a refusal, never a fault. -/
theorem step_answers {s : State} (h : BlockInv s) : (∃ t, step s = .next t) ∨ ∃ r, step s = .refused r := by
  obtain ⟨hphase, -, -⟩ := h
  cases hc : s.commands with
  | nil => exact .inl ⟨s, step_of_empty hc⟩
  | cons c rest =>
    cases hd : decode c.word with
    | reserved => exact .inr ⟨_, step_of_reserved hc hd⟩
    | command i =>
      rw [step_of_command hc hd]
      exact (exec_answers i (hphase.present c rest)).imp_right fun h => ⟨_, h⟩

/-- Settles O28: from a consistent state nothing faults; a next state extends the events, and a refusal ends every run. -/
theorem stepHasExactlyTwoOutcomes : Obligations.StepHasExactlyTwoOutcomes := by
  intro s hs
  obtain ⟨t, ht⟩ | ⟨r, hr⟩ := step_answers hs
  · obtain ⟨es, he⟩ := step_events_prefix ht
    exact .inl ⟨t, es, ht, he.symm⟩
  · exact .inr ⟨r, hr, fun n => run_succ_refused n hr⟩

end Sys2Proof.Machine

/-! ### INITIALIZED (spec 10_state.md R20)

INIT is the only command that writes INITIALIZED. That nothing clears it follows from this alone: INIT writes true, and every
other command keeps the value. -/

namespace Sys2Proof.Machine

theorem exec_init_initialized {s t : State} (h : exec .init s = .next t) : t.initialized = true := by
  cases h
  rfl

/-- NOP, PUSH and RESET leave INITIALIZED as it is (R121, R123, R125). -/
theorem exec_initialized_of_ne_init {i : Instr} {s t : State} (h : exec i s = .next t) (hi : i ≠ .init) :
    t.initialized = s.initialized := by
  cases i with
  | nop => cases h; rfl
  | push b =>
    obtain ⟨-, hinit, -⟩ := push_keeps h
    exact hinit
  | reset =>
    obtain ⟨-, rfl⟩ := exec_reset_next.mp h
    rfl
  | init => exact absurd rfl hi

/-- No command clears INITIALIZED. -/
theorem exec_keeps_initialized {i : Instr} {s t : State} (h : exec i s = .next t) (hs : s.initialized = true) :
    t.initialized = true := by
  by_cases hi : i = .init
  · subst hi
    exact exec_init_initialized h
  · rw [exec_initialized_of_ne_init h hi, hs]

theorem exec_push_not_init {s : State} (b : Byte) (h : s.initialized = false) :
    exec (.push b) s = .refused .notInit :=
  pushWith_refused.mpr ⟨h, rfl⟩

/-- Settles O32: only INIT writes INITIALIZED, and it writes true; until then RESET and PUSH are refused. -/
theorem initializedRecordsFirstInit : Obligations.InitializedRecordsFirstInit :=
  ⟨rfl, fun _ _ => exec_init_initialized, fun _ _ _ => exec_keeps_initialized,
    fun _ _ _ => exec_initialized_of_ne_init, fun _ h => ⟨exec_reset_not_init h, fun b => exec_push_not_init b h⟩⟩

end Sys2Proof.Machine

/-! ### The command word (spec 30_encoding.md R70-R74)

A command word is its code above its `din` byte. Decoding looks at the two fields alone, and answers an instruction for the
word that encodes it and for no other; so the words are counted code by code. -/

namespace Sys2Proof

@[simp] theorem cmdField_append (c : BitVec 2) (d : Byte) : cmdField (c ++ d) = c := BitVec.extractLsb'_append_eq_left

@[simp] theorem dinField_append (c : BitVec 2) (d : Byte) : dinField (c ++ d) = d := BitVec.extractLsb'_append_eq_right

theorem cmdField_append_dinField (w : CmdWord) : cmdField w ++ dinField w = w := BitVec.extractLsb'_append_extractLsb'

theorem decode_of_push_code {w : CmdWord} (h : cmdField w = 0b01#2) : decode w = .command (.push (dinField w)) :=
  if_pos h

/-- The reserved words by their two fields (R72). -/
theorem decode_eq_reserved_iff {w : CmdWord} : decode w = .reserved ↔ cmdField w ≠ 0b01#2 ∧ dinField w ≠ 0#8 := by
  unfold decode
  split
  case isTrue hpush => exact iff_of_false nofun fun ⟨hcode, _⟩ => hcode hpush
  case isFalse hpush =>
    split
    case isTrue hdin => exact iff_of_true rfl ⟨hpush, hdin⟩
    case isFalse hdin =>
      refine iff_of_false ?_ fun ⟨_, hne⟩ => hdin hne
      split
      · exact nofun
      · split <;> exact nofun

theorem decode_encode (i : Instr) : decode (encode i) = .command i := by
  cases i with
  | nop => decide
  | push b => exact Machine.decode_push b
  | reset => decide
  | init => decide

/-- The code that is none of the other three is that of INIT (R71). -/
theorem init_code_of_ne {c : BitVec 2} : c ≠ 0b01#2 → c ≠ 0b00#2 → c ≠ 0b10#2 → c = 0b11#2 := by
  revert c
  decide

/-- Only the word that encodes an instruction decodes to it. -/
theorem encode_of_decode {w : CmdWord} {i : Instr} (h : decode w = .command i) : encode i = w := by
  rw [← cmdField_append_dinField w]
  by_cases hpush : cmdField w = 0b01#2
  · rw [decode_of_push_code hpush] at h
    cases h
    rw [hpush, encode]
  · have hdin : dinField w = 0#8 := Decidable.byContradiction fun hne =>
      Decoded.noConfusion (h.symm.trans (decode_eq_reserved_iff.mpr ⟨hpush, hne⟩))
    rw [decode, if_neg hpush, if_neg (not_not_intro hdin)] at h
    rw [hdin]
    split at h
    case isTrue hnop =>
      cases h
      rw [hnop, encode]
    case isFalse hnop =>
      split at h
      case isTrue hreset =>
        cases h
        rw [hreset, encode]
      case isFalse hreset =>
        cases h
        rw [init_code_of_ne hpush hnop hreset, encode]

theorem decode_eq_command_iff {w : CmdWord} {i : Instr} : decode w = .command i ↔ w = encode i :=
  ⟨fun h => (encode_of_decode h).symm, fun h => h ▸ decode_encode i⟩

/-- A word decodes to the PUSH of its `din` exactly when its code is that of PUSH (R74). -/
theorem decode_eq_push_dinField_iff {w : CmdWord} :
    decode w = .command (.push (dinField w)) ↔ cmdField w = 0b01#2 := by
  refine ⟨fun h => ?_, decode_of_push_code⟩
  rw [← encode_of_decode h]
  exact cmdField_append _ _

/-! #### Counting words -/

/-- Each value of a bit vector is that of one number below `2 ^ w`. -/
theorem length_filter_ofNat_eq {w : Nat} (v : BitVec w) :
    ((List.range (2 ^ w)).filter fun n => decide (BitVec.ofNat w n = v)).length = 1 := by
  have hv : ∀ n ∈ List.range (2 ^ w), decide (BitVec.ofNat w n = v) = decide (n = v.toNat) := by
    intro n hn
    simp only [BitVec.toNat_eq, BitVec.toNat_ofNat, Nat.mod_eq_of_lt (List.mem_range.mp hn)]
  rw [List.filter_congr hv, List.filter_eq, List.length_replicate, List.count_range, if_pos v.isLt]

/-- Counting below `k * n` block by block. -/
theorem length_filter_range_mul (p : Nat → Bool) (k n : Nat) :
    ((List.range (k * n)).filter p).length
      = ((List.range k).map fun i => ((List.range n).filter fun j => p (i * n + j)).length).sum := by
  induction k with
  | zero => rw [Nat.zero_mul]; rfl
  | succ k ih =>
    rw [Nat.succ_mul, List.range_add, List.filter_append, List.length_append, ih, List.filter_map, List.length_map,
      List.range_succ, List.map_append, List.sum_append, List.map_singleton, List.sum_singleton]
    rfl

/-- The number of a word is 256 times its code plus its `din` (R70). -/
theorem ofNat_eq_code_append_din (c : Nat) {d : Nat} (hd : d < 256) :
    BitVec.ofNat 10 (c * 256 + d) = BitVec.ofNat 2 c ++ BitVec.ofNat 8 d := by
  apply BitVec.eq_of_toNat_eq
  rw [BitVec.toNat_append, ← Nat.shiftLeft_add_eq_or_of_lt (BitVec.isLt _), Nat.shiftLeft_eq]
  simp only [BitVec.toNat_ofNat]
  omega

/-- The words with a property, counted code by code. -/
theorem length_filter_words (p : CmdWord → Bool) :
    ((List.range 1024).filter fun n => p (BitVec.ofNat 10 n)).length
      = ((List.range 4).map fun c =>
          ((List.range 256).filter fun d => p (BitVec.ofNat 2 c ++ BitVec.ofNat 8 d)).length).sum := by
  refine (length_filter_range_mul _ 4 256).trans (congrArg List.sum ?_)
  refine List.map_congr_left fun c _ => congrArg List.length (List.filter_congr fun d hd => ?_)
  rw [ofNat_eq_code_append_din c (List.mem_range.mp hd)]

theorem length_filter_din_ne_zero :
    ((List.range 256).filter fun d => decide (BitVec.ofNat 8 d ≠ 0#8)).length = 255 := by
  have htotal := List.length_eq_countP_add_countP (fun d => decide (BitVec.ofNat 8 d = 0#8)) (l := List.range 256)
  have hzero : ((List.range 256).filter fun d => decide (BitVec.ofNat 8 d = 0#8)).length = 1 :=
    length_filter_ofNat_eq 0#8
  simp only [List.countP_eq_length_filter, List.length_range, decide_eq_true_eq, hzero] at htotal
  simp only [ne_eq]
  omega

/-- Under the code of PUSH no word is reserved, under each other code all are but the one whose `din` is 0 (R72). -/
theorem length_reserved_of_code (c : BitVec 2) :
    ((List.range 256).filter fun d => decide (decode (c ++ BitVec.ofNat 8 d) = .reserved)).length
      = if c = 0b01#2 then 0 else 255 := by
  simp only [decode_eq_reserved_iff, cmdField_append, dinField_append]
  by_cases hc : c = 0b01#2
  · rw [if_pos hc, List.length_eq_zero_iff, List.filter_eq_nil_iff]
    exact fun d _ h => (of_decide_eq_true h).1 hc
  · simp only [ne_eq, hc, not_false_eq_true, true_and, if_false]
    exact length_filter_din_ne_zero

theorem length_reserved_words :
    ((List.range 1024).filter fun n => decide (decode (BitVec.ofNat 10 n) = .reserved)).length = 765 := by
  rw [length_filter_words fun w => decide (decode w = .reserved)]
  simp only [length_reserved_of_code]
  decide

/-- Under the code of PUSH every word is a PUSH of its `din`, under each other code none (R74). -/
theorem length_push_of_code (c : BitVec 2) :
    ((List.range 256).filter fun d => decide (cmdField (c ++ BitVec.ofNat 8 d) = 0b01#2)).length
      = if c = 0b01#2 then 256 else 0 := by
  simp only [cmdField_append]
  by_cases hc : c = 0b01#2
  · rw [if_pos hc, List.filter_eq_self.mpr fun d _ => decide_eq_true hc, List.length_range]
  · rw [if_neg hc, List.length_eq_zero_iff, List.filter_eq_nil_iff]
    exact fun d _ h => hc (of_decide_eq_true h)

theorem dinField_ofNat (n : Nat) : dinField (BitVec.ofNat 10 n) = BitVec.ofNat 8 n := by
  apply BitVec.eq_of_toNat_eq
  simp only [dinField, BitVec.extractLsb'_toNat, BitVec.toNat_ofNat]
  omega

theorem length_push_words :
    ((List.range 1024).filter fun n =>
      decide (decode (BitVec.ofNat 10 n) = .command (.push (BitVec.ofNat 8 n)))).length = 256 := by
  simp only [← dinField_ofNat, decode_eq_push_dinField_iff]
  rw [length_filter_words fun w => decide (cmdField w = 0b01#2)]
  simp only [length_push_of_code]
  decide

/-- An instruction has one word. -/
theorem length_words_of_command (i : Instr) :
    ((List.range 1024).filter fun n => decide (decode (BitVec.ofNat 10 n) = .command i)).length = 1 := by
  simp only [decode_eq_command_iff]
  exact length_filter_ofNat_eq (encode i)

end Sys2Proof

namespace Sys2Proof.Machine

/-- Settles O4: each code above its `din` is the word that encodes the command. -/
theorem commandCodesDecode : Obligations.CommandCodesDecode :=
  ⟨decode_encode .nop, fun d => decode_encode (.push d), decode_encode .reset, decode_encode .init⟩

/-- Settles O6: the reserved words by their fields, the step that refuses them, and the count of every kind of word. -/
theorem reservedWordsAreRefused : Obligations.ReservedWordsAreRefused :=
  ⟨fun _ => decode_eq_reserved_iff,
    fun _ _ _ hc hcode hdin => step_of_reserved hc (decode_eq_reserved_iff.mpr ⟨hcode, hdin⟩),
    length_reserved_words, length_push_words,
    length_words_of_command .nop, length_words_of_command .reset, length_words_of_command .init⟩

end Sys2Proof.Machine

/-! ### The checksums of an encoded frame (spec 30_encoding.md R77, R78)

An encoded frame is its 19 marker and header bytes, their checksum, and the payload part; the offsets of the two rules cut it
at these joints. -/

namespace Sys2Proof.Machine

theorem encodeFrame_eq (p : Params) (h : Header) (payload : List Byte) :
    encodeFrame p h payload
      = encodeHeader p h (BitVec.ofNat 16 payload.length)
        ++ (le16Bytes (crc16 (encodeHeader p h (BitVec.ofNat 16 payload.length)))
          ++ if payload.length > 0 then withChecksum payload else []) :=
  List.append_assoc ..

theorem encodeFrame_take_header (p : Params) (h : Header) (payload : List Byte) :
    (encodeFrame p h payload).take 19 = encodeHeader p h (BitVec.ofNat 16 payload.length) := by
  rw [encodeFrame_eq, List.take_left' (encodeHeader_length ..)]

theorem encodeFrame_header_checksum (p : Params) (h : Header) (payload : List Byte) :
    ((encodeFrame p h payload).drop 19).take 2
      = le16Bytes (crc16 (encodeHeader p h (BitVec.ofNat 16 payload.length))) := by
  rw [encodeFrame_eq, List.drop_left' (encodeHeader_length ..), List.take_left' (le16Bytes_length _)]

/-- What follows the checksummed header. -/
theorem encodeFrame_drop_header (p : Params) (h : Header) (payload : List Byte) :
    (encodeFrame p h payload).drop 21 = if payload.length > 0 then withChecksum payload else [] :=
  List.drop_left' (withChecksum_length _)

/-- Settles O50: the first 19 bytes are the encoded header, which begins with the marker; the next two are its checksum. -/
theorem headerChecksumCoversMarkerAndHeader : Obligations.HeaderChecksumCoversMarkerAndHeader := by
  intro p h payload
  rw [encodeFrame_take_header, encodeFrame_header_checksum]
  exact ⟨encodeHeader_length .., rfl, rfl⟩

/-- Settles O51: after the checksummed header stands the checksummed payload, or nothing when the payload is empty. -/
theorem payloadChecksumPresentIffPayload : Obligations.PayloadChecksumPresentIffPayload := by
  intro p h payload
  rw [encodeFrame_drop_header]
  exact ⟨fun hpos => if_pos hpos, fun hzero => if_neg (by omega)⟩

end Sys2Proof.Machine

/-! ### NOP, INIT and the rules over all commands (spec 41_parser.md R120-R122, R141)

What a command writes into a register follows from its one meaning; for PUSH, whatever the parser state, from `push_keeps`. -/

namespace Sys2Proof.Machine

/-- Settles O29: R31 gives every PUSH after INIT what it reads and a place for its byte. -/
theorem pushNeverBlocks : Obligations.PushNeverBlocks := by
  intro s b hs hi
  obtain ⟨hphase, -, -⟩ := hs
  exact pushWith_answers b hi hphase

theorem exec_lastProgress_of_ne_nop {i : Instr} {s t : State} (h : exec i s = .next t) (hi : i ≠ .nop) :
    t.lastProgress = s.now := by
  cases i with
  | nop => exact absurd rfl hi
  | push b =>
    obtain ⟨-, -, -, -, -, hstamp⟩ := push_keeps h
    exact hstamp
  | reset =>
    obtain ⟨-, rfl⟩ := exec_reset_next.mp h
    rfl
  | init => cases h; rfl

/-- Settles O30: NOP answers the state it is given; each of the other three stamps. -/
theorem lastProgressIsStampedByAllButNop : Obligations.LastProgressIsStampedByAllButNop := by
  intro i s t h
  refine ⟨exec_lastProgress_of_ne_nop h, ?_⟩
  rintro rfl
  cases h
  rfl

/-- Settles O1: `present` samples the side inputs of the command and takes it off the list. -/
theorem stepPerformsDecodedCommand : Obligations.StepPerformsDecodedCommand :=
  fun _ _ _ hc => ⟨fun _ => step_of_command hc, step_of_reserved hc⟩

/-- Settles O8: NOP answers the state it is given. -/
theorem nopChangesNothing : Obligations.NopChangesNothing := exec_nop

/-- NOP, PUSH and RESET leave LOCAL_ID as it is (R121, R123, R125). -/
theorem exec_localId_of_ne_init {i : Instr} {s t : State} (h : exec i s = .next t) (hi : i ≠ .init) :
    t.localId = s.localId := by
  cases i with
  | nop => cases h; rfl
  | push b =>
    obtain ⟨hid, -⟩ := push_keeps h
    exact hid
  | reset =>
    obtain ⟨-, rfl⟩ := exec_reset_next.mp h
    rfl
  | init => exact absurd rfl hi

/-- Settles O9: all that INIT writes but the timestamp, a second INIT with the same identifier writes as it stands. -/
theorem initInstallsIdentifierAndClearsParse : Obligations.InitInstallsIdentifierAndClearsParse := by
  refine ⟨exec_init, fun s t later h => ?_, fun _ _ _ => exec_localId_of_ne_init⟩
  cases h
  rfl

end Sys2Proof.Machine

/-! ### PUSH in SeekStart (spec 41_parser.md R126, R127) -/

namespace Sys2Proof.Machine

/-- Settles O13: SEEK_MATCHED takes the outcome of the one comparison SeekLow makes. -/
theorem seekLowLooksForFirstMarkerByte : Obligations.SeekLowLooksForFirstMarkerByte := by
  intro s b hi hp hm
  rw [exec_push, pushWith_seek hi hp, hm]
  rfl

/-- SeekHigh by the three conditions on the byte (R127). -/
theorem seekHigh_eq (p : Params) (b : Byte) (s : State) :
    seekHigh p b s =
      if b = smHi p then s.enterHeader
      else if p.seekRecheck = true ∧ b = smLo p then s.setMatched true
      else s.setMatched false := by
  simp only [seekHigh, isMarkerHigh, isMarkerLow, beq_iff_eq, Bool.and_eq_true]

theorem pushWith_seekHigh {p : Params} {b : Byte} {s : State} (hi : s.initialized = true) (hp : s.pstate = .seekStart)
    (hm : s.seekMatched = true) : pushWith p b s = .next (seekHigh p b s.touch) := by
  rw [pushWith_seek hi hp, if_pos hm]

/-- Settles O14: the three cases for every parameter; in the machine SEEK_RECHECK is true, so that the second is SM_LO alone. -/
theorem seekHighLooksForSecondMarkerByte : Obligations.SeekHighLooksForSecondMarkerByte := by
  refine ⟨fun p s b hi hp hm => ?_, fun s b hi hp hm => ?_⟩
  · rw [pushWith_seekHigh hi hp hm, seekHigh_eq]
    rfl
  · have hrecheck : Config.params.seekRecheck = true := rfl
    rw [exec_push, pushWith_seekHigh hi hp hm, seekHigh_eq]
    simp only [hrecheck, true_and]
    rfl

end Sys2Proof.Machine

/-! ### PUSH in ReadingHeader (spec 41_parser.md R128-R134)

At the 19th byte PUSH answers HeaderComplete of the 19 bytes in the state in which the byte is stored and counted. The outcome of
each of the five rules is then one branch of its fixed order. -/

namespace Sys2Proof.Machine

/-- The state in which HeaderComplete is evaluated: the 19th byte stored and counted, LAST_PROGRESS stamped (R128, R141). -/
def State.fillHeader (s : State) (b : Byte) : State :=
  (s.touch.setBuf .hbuf (Memory.write s.hbuf 18 b)).setHcount 19

theorem pushWith_headerEnd {p : Params} {s : State} {bs : List Byte} (b : Byte) (h : AtHeaderEnd s bs) :
    pushWith p b s = .next (headerComplete p (bs ++ [b]) (s.fillHeader b)) := by
  obtain ⟨hi, hp, hcount, hbs⟩ := h
  rw [pushWith_header hi hp]
  exact headerByte_last (s := s.touch) hcount hbs

/-- Settles O15: below HCOUNT = 18 the byte is stored and counted alone; at 18 the header is complete. -/
theorem headerByteIsStoredAndCounted : Obligations.HeaderByteIsStoredAndCounted := by
  intro s b hi hp
  refine ⟨fun hlt => ?_, fun h18 bs hbs => pushWith_headerEnd b ⟨hi, hp, h18, hbs⟩⟩
  rw [exec_push, pushWith_header hi hp]
  exact headerByte_of_lt (s := s.touch) hlt

theorem viewLen_eq_zero_iff {hb : List Byte} : viewLen hb = 0#16 ↔ (viewLen hb).toNat = 0 :=
  BitVec.toNat_eq

/-- HeaderComplete with LEN read as a number (R129). -/
theorem headerComplete_eq (p : Params) (hb : List Byte) (s : State) :
    headerComplete p hb s =
      if headerCheck p hb = false then headerCrcError p hb s
      else if viewDst hb ≠ s.localId then destinationDrop s
      else if p.maxFrag < (viewLen hb).toNat then lengthError hb s
      else if (viewLen hb).toNat = 0 then dispatchEmpty hb s
      else s.enterPayload := by
  simp only [headerComplete, lengthExceeds, Bool.not_eq_true', decide_eq_true_eq, viewLen_eq_zero_iff]

/-- Settles O16: the if-chain of HeaderComplete, evaluated where the 19th byte is stored. -/
theorem headerChecksRunInOrder : Obligations.HeaderChecksRunInOrder := by
  intro s bs b h hb u
  rw [exec_push, pushWith_headerEnd b h, headerComplete_eq]
  rfl

/-- The header check fails exactly when the two checksums differ (R103, R106). -/
theorem headerCheck_eq_false_iff {p : Params} {hb : List Byte} :
    headerCheck p hb = false ↔ headerCalc p hb ≠ viewHcrc hb := beq_eq_false_iff_ne

theorem headerComplete_of_mismatch {p : Params} {hb : List Byte} {s : State} (h : headerCheck p hb = false) :
    headerComplete p hb s = headerCrcError p hb s := by
  rw [headerComplete_eq, if_pos h]

/-- The checks of a header whose checksum holds (R129). -/
theorem headerComplete_of_valid {p : Params} {hb : List Byte} {s : State} (h : headerCheck p hb = true) :
    headerComplete p hb s =
      if viewDst hb ≠ s.localId then destinationDrop s
      else if p.maxFrag < (viewLen hb).toNat then lengthError hb s
      else if (viewLen hb).toNat = 0 then dispatchEmpty hb s
      else s.enterPayload := by
  rw [headerComplete_eq, if_neg (ne_false_of_eq_true h)]

/-- The destination is compared before LEN is looked at (R131). -/
theorem headerComplete_of_foreign {p : Params} {hb : List Byte} {s : State} (h : headerCheck p hb = true)
    (hd : viewDst hb ≠ s.localId) : headerComplete p hb s = destinationDrop s := by
  rw [headerComplete_of_valid h, if_pos hd]

theorem headerComplete_of_overlong {p : Params} {hb : List Byte} {s : State} (h : headerCheck p hb = true)
    (hd : viewDst hb = s.localId) (hlong : p.maxFrag < (viewLen hb).toNat) :
    headerComplete p hb s = lengthError hb s := by
  rw [headerComplete_of_valid h, if_neg (not_not_intro hd), if_pos hlong]

/-- LEN = 0 never exceeds MAX_FRAG (R133). -/
theorem headerComplete_of_empty {p : Params} {hb : List Byte} {s : State} (h : headerCheck p hb = true)
    (hd : viewDst hb = s.localId) (hempty : viewLen hb = 0#16) : headerComplete p hb s = dispatchEmpty hb s := by
  have hlen : (viewLen hb).toNat = 0 := viewLen_eq_zero_iff.mp hempty
  rw [headerComplete_of_valid h, if_neg (not_not_intro hd), if_neg (by omega), if_pos hlen]

/-- With 1 ≤ LEN ≤ MAX_FRAG no check applies (R134). -/
theorem headerComplete_of_payload {p : Params} {hb : List Byte} {s : State} (h : headerCheck p hb = true)
    (hd : viewDst hb = s.localId) (hpos : 1 ≤ (viewLen hb).toNat) (hmax : (viewLen hb).toNat ≤ p.maxFrag) :
    headerComplete p hb s = s.enterPayload := by
  rw [headerComplete_of_valid h, if_neg (not_not_intro hd), if_neg (Nat.not_lt.mpr hmax), if_neg (Nat.ne_of_gt hpos)]

/-- The outcome of the header checks is the outcome of the PUSH of the 19th byte (R128). -/
theorem pushWith_of_headerComplete {p : Params} {s t : State} {bs : List Byte} {b : Byte} (h : AtHeaderEnd s bs)
    (hc : headerComplete p (bs ++ [b]) (s.fillHeader b) = t) : pushWith p b s = .next t :=
  (pushWith_headerEnd b h).trans (congrArg _ hc)

/-- Settles O17: the first check decides, and its event carries the two checksums compared. -/
theorem headerCrcMismatchIsLogged : Obligations.HeaderCrcMismatchIsLogged :=
  fun _ _ _ h hne => pushWith_of_headerComplete h (headerComplete_of_mismatch (headerCheck_eq_false_iff.mpr hne))

/-- Settles O18: the second check decides, and it emits nothing. -/
theorem foreignHeaderIsDroppedSilently : Obligations.ForeignHeaderIsDroppedSilently :=
  fun _ _ _ h hvalid hforeign => pushWith_of_headerComplete h (headerComplete_of_foreign hvalid hforeign)

/-- Settles O19: the third check decides, for every parameter and so for those of the machine. -/
theorem overlongHeaderGivesLogLen : Obligations.OverlongHeaderGivesLogLen :=
  ⟨fun _ _ _ _ h hvalid hd hlong => pushWith_of_headerComplete h (headerComplete_of_overlong hvalid hd hlong),
    fun _ _ _ h hvalid hd hlong => pushWith_of_headerComplete h (headerComplete_of_overlong hvalid hd hlong)⟩

/-- Settles O20: the fourth check decides, and the record has neither payload nor payload checksum. -/
theorem emptyFrameIsDispatchedAtOnce : Obligations.EmptyFrameIsDispatchedAtOnce :=
  fun _ _ _ h hvalid hd hempty => pushWith_of_headerComplete h (headerComplete_of_empty hvalid hd hempty)

/-- Settles O21: no check applies. -/
theorem addressedHeaderEntersPayload : Obligations.AddressedHeaderEntersPayload :=
  fun _ _ _ h hvalid hd hpos hmax => pushWith_of_headerComplete h (headerComplete_of_payload hvalid hd hpos hmax)

end Sys2Proof.Machine

/-! ### PUSH in ReadingPayload (spec 41_parser.md R135-R139) -/

namespace Sys2Proof.Machine

theorem pushWith_inPayload {p : Params} {s : State} {hb : List Byte} (b : Byte) (h : InPayload s hb) :
    pushWith p b s = payloadStore p hb b s.touch := by
  obtain ⟨hi, hp, hhb⟩ := h
  exact pushWith_payload hi hp hhb

/-- Settles O22: PCOUNT < LEN ≤ MAX_FRAG points into PBUF. -/
theorem payloadByteIsStoredAndCounted : Obligations.PayloadByteIsStoredAndCounted := by
  intro s hb b h hlt hmax
  rw [exec_push, pushWith_inPayload b h]
  exact payloadStore_of_lt (s := s.touch) hlt (Nat.lt_of_lt_of_le hlt hmax)

/-- Settles O23: PCOUNT − LEN = 0 is the index of the low checksum byte. -/
theorem checksumLowByteIsStored : Obligations.ChecksumLowByteIsStored := by
  intro s hb b h hlen
  rw [exec_push, pushWith_inPayload b h, payloadStore_low (s := s.touch) hlen, ← hlen]
  rfl

/-- The state in which the payload check is evaluated: the high checksum byte stored and counted, LAST_PROGRESS stamped
(R137, R141). -/
def State.fillChecksum (s : State) (hb : List Byte) (b : Byte) : State :=
  (s.touch.setBuf .pcrcRx (Memory.write s.pcrcRx 1 b)).setPcount ((viewLen hb).toNat + 2)

theorem pushWith_payloadEnd {p : Params} {s : State} {hb payload : List Byte} {lo : Byte} (b : Byte)
    (h : AtPayloadEnd s hb payload lo) :
    pushWith p b s = .next
      (if payloadCheck payload [lo, b] = true then payloadAccept hb payload [lo, b] (s.fillChecksum hb b)
      else payloadCrcError hb payload [lo, b] (s.fillChecksum hb b)) := by
  obtain ⟨hin, hcount, hpayload, hlo⟩ := h
  rw [pushWith_inPayload b hin]
  exact payloadStore_high (s := s.touch) hcount hpayload hlo

/-- Settles O24: the payload and both checksum bytes are read back and checked. -/
theorem checksumHighByteCompletesFrame : Obligations.ChecksumHighByteCompletesFrame :=
  fun _ _ _ _ b h => pushWith_payloadEnd b h

/-- The payload check compares the checksum of the payload with the two bytes received (R104, R106). -/
theorem payloadCheck_eq_true_iff {payload : List Byte} {lo hi : Byte} :
    payloadCheck payload [lo, hi] = true ↔ crc16 payload = le16 lo hi := beq_iff_eq

/-- Settles O25: the check selects PayloadAccept, which ends the frame. -/
theorem matchingPayloadIsDispatched : Obligations.MatchingPayloadIsDispatched := by
  intro s hb payload lo b h hcrc
  rw [exec_push, pushWith_payloadEnd b h, if_pos (payloadCheck_eq_true_iff.mpr hcrc)]
  rfl

/-- Settles O26: the check selects PayloadCrcError, which ends the frame. -/
theorem payloadCrcMismatchIsNacked : Obligations.PayloadCrcMismatchIsNacked := by
  intro s hb payload lo b h hcrc
  rw [exec_push, pushWith_payloadEnd b h, if_neg (mt payloadCheck_eq_true_iff.mp hcrc)]
  rfl

end Sys2Proof.Machine

/-! ### The frame record (spec 41_parser.md R140)

A PUSH emits FRAME_OUT in two places only: at a complete header with LEN = 0, and at a matching payload checksum. In each the
buffers of the next state still hold what the record was built from. -/

namespace Sys2Proof.Machine

/-- A complete header is dispatched only when it is addressed here and has no payload (R129, R133). -/
theorem headerComplete_frameOut {p : Params} {hb : List Byte} {s : State} {r : FrameRecord}
    (h : (headerComplete p hb s).events = s.events ++ [.frameOut r]) :
    viewDst hb = s.localId ∧ viewLen hb = 0#16 ∧ r = frameRecord hb none [] := by
  obtain ⟨-, e⟩ | ⟨-, -, e⟩ | ⟨-, -, -, e⟩ | ⟨-, hd, hlen, e⟩ | ⟨-, -, -, -, e⟩ := headerComplete_cases p hb s <;> rw [e] at h
  · cases List.append_cancel_left h
  · cases List.append_cancel_left h
  · cases List.append_cancel_left h
  · cases List.append_cancel_left h
    exact ⟨hd, hlen, rfl⟩
  · cases List.self_eq_append_right.mp h

/-- The two ways a PUSH emits FRAME_OUT, with what it leaves in the buffers (R133, R138). -/
theorem pushWith_frameOut {p : Params} {b : Byte} {s t : State} {r : FrameRecord} (h : pushWith p b s = .next t)
    (he : t.events = s.events ++ [.frameOut r]) :
    (∃ hb, headerBytes t = some hb ∧ viewDst hb = s.localId ∧ viewLen hb = 0#16 ∧ r = frameRecord hb none [])
    ∨ (s.pstate = .readingPayload ∧ ∃ hb payload lo, headerBytes s = some hb ∧ t.hbuf = s.hbuf
        ∧ payloadBytes t (viewLen hb).toNat = some payload
        ∧ Memory.read t.pcrcRx 0 = some lo ∧ Memory.read t.pcrcRx 1 = some b
        ∧ r = frameRecord hb (some (le16 lo b)) payload) := by
  obtain ⟨-, ⟨-, -, rfl⟩ | ⟨-, -, rfl | rfl | rfl⟩ | ⟨-, -, rfl⟩ | ⟨-, -, bs, hbs, rfl⟩ | ⟨-, hb, -, -, -, rfl⟩
    | ⟨-, hb, -, -, rfl⟩ | ⟨hp, hb, payload, lo, hhb, -, hpl, hlo, ⟨-, rfl⟩ | ⟨-, rfl⟩⟩⟩ := push_cases h
  iterate 5 cases List.self_eq_append_right.mp he
  · obtain ⟨hd, hlen, hr⟩ := headerComplete_frameOut (s := s.fillHeader b) he
    obtain ⟨-, -, -, -, -, -, hhbuf, -⟩ := headerComplete_keeps p (bs ++ [b]) (s.fillHeader b)
    refine .inl ⟨bs ++ [b], ?_, hd, hlen, hr⟩
    exact (headerBytes_congr hhbuf).trans (Memory.slice_write_end b hbs)
  iterate 2 cases List.self_eq_append_right.mp he
  · cases List.append_cancel_left he
    refine .inr ⟨hp, hb, payload, lo, hhb, rfl, hpl, ?_, Memory.read_write_same s.pcrcRx 1 b, rfl⟩
    exact (Memory.read_write_other s.pcrcRx b Nat.zero_ne_one).trans hlo
  · cases List.append_cancel_left he

/-- The invariant of ReadingPayload at the header bytes at hand: LEN is not 0 and the frame is addressed here (R31). -/
theorem PhaseOk.addressed {p : Params} {s : State} {hb : List Byte} (h : PhaseOk p s) (hp : s.pstate = .readingPayload)
    (hhb : headerBytes s = some hb) : viewLen hb ≠ 0#16 ∧ viewDst hb = s.localId := by
  simp only [PhaseOk, hp] at h
  obtain ⟨-, -, hb', hhb', hpos, -, -, hd, -⟩ := h
  obtain rfl : hb = hb' := Option.some.inj (hhb.symm.trans hhb')
  exact ⟨mt viewLen_eq_zero_iff.mp (Nat.ne_of_gt hpos), hd⟩

/-- From a consistent state, every record handed out is FrameRecord of the buffers as they stand after the step (R140). -/
theorem frameOut_record {s t : State} {b : Byte} {r : FrameRecord} (hs : BlockInv s) (h : exec (.push b) s = .next t)
    (he : t.events = s.events ++ [.frameOut r]) :
    ∃ hb pcrc payload, r = frameRecord hb pcrc payload ∧ headerBytes t = some hb ∧ viewDst hb = s.localId
      ∧ payloadBytes t (viewLen hb).toNat = some payload
      ∧ (viewLen hb = 0#16 → pcrc = none)
      ∧ (viewLen hb ≠ 0#16 → ∃ lo hi, Memory.read t.pcrcRx 0 = some lo ∧ Memory.read t.pcrcRx 1 = some hi
          ∧ pcrc = some (le16 lo hi)) := by
  obtain ⟨hphase, -, -⟩ := hs
  obtain ⟨hb, hhb, hd, hlen, rfl⟩ | ⟨hp, hb, payload, lo, hhb, hhbuf, hpl, hlo, hhi, rfl⟩ := pushWith_frameOut h he
  · refine ⟨hb, none, [], rfl, hhb, hd, ?_, fun _ => rfl, fun hne => absurd hlen hne⟩
    rw [viewLen_eq_zero_iff.mp hlen]
    rfl
  · obtain ⟨hne, hd⟩ := hphase.addressed hp hhb
    exact ⟨hb, some (le16 lo b), payload, rfl, (headerBytes_congr hhbuf).trans hhb, hd, hpl, fun h0 => absurd h0 hne,
      fun _ => ⟨lo, b, hlo, hhi, rfl⟩⟩

/-- Settles O27: each field of FrameRecord is by definition its view of the 19 header bytes. -/
theorem frameRecordFieldsAreBufferViews : Obligations.FrameRecordFieldsAreBufferViews := by
  intro s t b r hs h he
  obtain ⟨hb, pcrc, payload, rfl, hhb, hd, hpl, hnone, hsome⟩ := frameOut_record hs h he
  exact ⟨hb, hhb, rfl, rfl, hd, rfl, rfl, rfl, rfl, rfl, rfl, rfl, hpl, Memory.slice_length hpl, hnone, hsome⟩

end Sys2Proof.Machine

/-! ### Fragment counts and slices (spec 42_wire_functions.md R171, R172)

Everything about the count follows from one equivalence: a count of at least 1 is no smaller than FragmentCount exactly when
its fragments hold the payload. -/

namespace Sys2Proof.Machine

theorem one_le_fragmentCount (l m : Nat) : 1 ≤ fragmentCount l m := Nat.le_max_left ..

theorem fragmentCount_le_iff {l m k : Nat} (hm : 1 ≤ m) (hk : 1 ≤ k) : fragmentCount l m ≤ k ↔ l ≤ k * m := by
  rw [fragmentCount, Nat.max_le, and_iff_right hk, Nat.div_le_iff_le_mul_add_pred hm, Nat.mul_comm m k]
  omega

theorem lt_fragmentCount_iff {l m k : Nat} (hm : 1 ≤ m) (hk : 1 ≤ k) : k < fragmentCount l m ↔ k * m < l :=
  Nat.not_le.symm.trans ((not_congr (fragmentCount_le_iff hm hk)).trans Nat.not_le)

theorem le_fragmentCount_mul {m : Nat} (l : Nat) (hm : 1 ≤ m) : l ≤ fragmentCount l m * m :=
  (fragmentCount_le_iff hm (one_le_fragmentCount l m)).mp (Nat.le_refl _)

/-- A payload of at most M bytes, the empty one included, is one fragment. -/
theorem fragmentCount_eq_one {l m : Nat} (hm : 1 ≤ m) (hl : l ≤ m) : fragmentCount l m = 1 :=
  Nat.le_antisymm ((fragmentCount_le_iff hm (Nat.le_refl _)).mpr (m.one_mul.symm ▸ hl)) (one_le_fragmentCount l m)

theorem fragmentCount_succ_self {m : Nat} (hm : 1 ≤ m) : fragmentCount (m + 1) m = 2 :=
  Nat.le_antisymm ((fragmentCount_le_iff hm (by decide)).mpr (by omega))
    ((lt_fragmentCount_iff hm (Nat.le_refl _)).mpr (by omega))

theorem fragmentTotal_of_le {l m : Nat} (h : fragmentCount l m ≤ 65535) :
    fragmentTotal l m = some (BitVec.ofNat 16 (fragmentCount l m)) := if_pos h

theorem fragmentTotal_of_not_le {l m : Nat} (h : ¬fragmentCount l m ≤ 65535) : fragmentTotal l m = none := if_neg h

/-- Settles O53: FragmentCount is the least count of at least 1 with l ≤ k * m; the corner cases are those of one and of two
fragments. -/
theorem fragmentCountIsCeilingAtLeastOne : Obligations.FragmentCountIsCeilingAtLeastOne := by
  refine ⟨fun l m hm => ⟨one_le_fragmentCount l m, le_fragmentCount_mul l hm,
    fun k hk => (fragmentCount_le_iff hm hk).mpr, fragmentCount_eq_one hm m.zero_le, fragmentCount_eq_one hm (Nat.le_refl m),
    fragmentCount_succ_self hm, fun h => ⟨_, fragmentTotal_of_le h, ?_⟩⟩, by decide⟩
  exact Nat.mod_eq_of_lt (Nat.lt_succ_of_le h)

/-- Cutting one more slice takes M more bytes, so the first n slices are the first n * M bytes. -/
theorem flatMap_fragmentSlice_range (payload : List Byte) (m n : Nat) :
    (List.range n).flatMap (fragmentSlice payload m) = payload.take (n * m) := by
  induction n with
  | zero => rw [Nat.zero_mul]; rfl
  | succ n ih =>
    rw [List.range_succ, List.flatMap_append, ih, List.flatMap_singleton, Nat.succ_mul, List.take_add]
    rfl

theorem flatMap_fragmentSlice {m : Nat} (payload : List Byte) (hm : 1 ≤ m) :
    (List.range (fragmentCount payload.length m)).flatMap (fragmentSlice payload m) = payload := by
  rw [flatMap_fragmentSlice_range, List.take_of_length_le (le_fragmentCount_mul _ hm)]

theorem fragmentSlice_length (payload : List Byte) (m i : Nat) :
    (fragmentSlice payload m i).length = min m (payload.length - i * m) := by
  rw [fragmentSlice, List.length_take, List.length_drop]

theorem fragmentSlice_getElem? {payload : List Byte} {m i k : Nat} (hk : k < (fragmentSlice payload m i).length) :
    (fragmentSlice payload m i)[k]? = payload[i * m + k]? := by
  have hkm : k < m := Nat.lt_of_lt_of_le hk (List.length_take_le ..)
  rw [fragmentSlice, List.getElem?_take_of_lt hkm, List.getElem?_drop]

theorem sum_fragmentSlice_length {m : Nat} (payload : List Byte) (hm : 1 ≤ m) :
    ((List.range (fragmentCount payload.length m)).map fun i => (fragmentSlice payload m i).length).sum
      = payload.length := by
  rw [← List.length_flatMap, flatMap_fragmentSlice payload hm]

/-- A slice with another after it is full. -/
theorem fragmentSlice_length_of_not_last {payload : List Byte} {m i : Nat} (hm : 1 ≤ m)
    (hi : i + 1 < fragmentCount payload.length m) : (fragmentSlice payload m i).length = m := by
  have hend : (i + 1) * m < payload.length := (lt_fragmentCount_iff hm (Nat.le_add_left ..)).mp hi
  rw [Nat.succ_mul] at hend
  rw [fragmentSlice_length]
  omega

/-- The last slice is the rest of the payload. -/
theorem fragmentSlice_length_last {m : Nat} (payload : List Byte) (hm : 1 ≤ m) :
    (fragmentSlice payload m (fragmentCount payload.length m - 1)).length
      = payload.length - (fragmentCount payload.length m - 1) * m := by
  have hall := le_fragmentCount_mul payload.length hm
  rw [← Nat.sub_add_cancel (one_le_fragmentCount payload.length m), Nat.succ_mul] at hall
  rw [fragmentSlice_length]
  omega

/-- Every fragment of a payload that is not empty begins inside it. -/
theorem mul_lt_of_lt_fragmentCount {l m i : Nat} (hm : 1 ≤ m) (hl : 1 ≤ l) (hi : i < fragmentCount l m) : i * m < l := by
  cases i with
  | zero => rwa [Nat.zero_mul]
  | succ i => exact (lt_fragmentCount_iff hm (Nat.le_add_left ..)).mp hi

theorem fragmentSlice_last_nonempty {payload : List Byte} {m : Nat} (hm : 1 ≤ m) (hl : 1 ≤ payload.length) :
    1 ≤ (fragmentSlice payload m (fragmentCount payload.length m - 1)).length := by
  have hlast := mul_lt_of_lt_fragmentCount hm hl (Nat.sub_one_lt_of_lt (one_le_fragmentCount payload.length m))
  rw [fragmentSlice_length_last payload hm]
  omega

/-- A fragment has a header only where the 16-bit field carries the count, and that field carries every index below it. -/
theorem fragmentHeader_seq {h hd : Header} {l m i : Nat} (hi : i < fragmentCount l m)
    (he : fragmentHeader h l m i = some hd) : hd.seq.toNat = i := by
  by_cases hcount : fragmentCount l m ≤ 65535
  · rw [fragmentHeader, fragmentTotal_of_le hcount] at he
    cases he
    exact Nat.mod_eq_of_lt (by omega)
  · rw [fragmentHeader, fragmentTotal_of_not_le hcount] at he
    cases he

/-- Settles O54: the slices are those of `payload.take (n * m)`, and n * m bytes are the whole payload. -/
theorem fragmentSlicesCoverPayload : Obligations.FragmentSlicesCoverPayload :=
  fun payload m hm => ⟨flatMap_fragmentSlice payload hm, sum_fragmentSlice_length payload hm,
    fun i _ => fragmentSlice_length payload m i, fun _ _ _ => fragmentSlice_getElem?,
    fun _ => fragmentSlice_length_of_not_last hm, fragmentSlice_length_last payload hm,
    fragmentSlice_last_nonempty hm, fun _ _ _ => fragmentHeader_seq⟩

end Sys2Proof.Machine

/-! ### The bytes of an encoded frame (spec 42_wire_functions.md R170) -/

namespace Sys2Proof.Machine

/-- The length field of R170 as it is written there, on the number itself. -/
theorem le16Bytes_ofNat (n : Nat) : le16Bytes (BitVec.ofNat 16 n) = [BitVec.ofNat 8 n, BitVec.ofNat 8 (n / 256)] := by
  have hlow : (BitVec.ofNat 16 n).extractLsb' 0 8 = BitVec.ofNat 8 n := by
    apply BitVec.eq_of_toNat_eq
    simp only [BitVec.extractLsb'_toNat, BitVec.toNat_ofNat]
    omega
  have hhigh : (BitVec.ofNat 16 n).extractLsb' 8 8 = BitVec.ofNat 8 (n / 256) := by
    apply BitVec.eq_of_toNat_eq
    simp only [BitVec.extractLsb'_toNat, BitVec.toNat_ofNat, Nat.shiftRight_eq_div_pow]
    omega
  rw [le16Bytes, hlow, hhigh]

/-- The 19 bytes of an encoded header in wire order. -/
theorem encodeHeader_bytes (p : Params) (h : Header) (n : Nat) :
    encodeHeader p h (BitVec.ofNat 16 n) = [smLo p, smHi p,
      h.src.extractLsb' 0 8, h.src.extractLsb' 8 8, h.src.extractLsb' 16 8, h.src.extractLsb' 24 8,
      h.dst.extractLsb' 0 8, h.dst.extractLsb' 8 8, h.dst.extractLsb' 16 8, h.dst.extractLsb' 24 8,
      h.cls, h.mtype, h.total.extractLsb' 0 8, h.total.extractLsb' 8 8, h.ackreq,
      h.seq.extractLsb' 0 8, h.seq.extractLsb' 8 8, BitVec.ofNat 8 n, BitVec.ofNat 8 (n / 256)] := by
  rw [encodeHeader, le16Bytes_ofNat]
  rfl

theorem encodeFrame_length (p : Params) (h : Header) (payload : List Byte) :
    (encodeFrame p h payload).length = if payload.length = 0 then 21 else 23 + payload.length := by
  rw [encodeFrame, List.length_append, withChecksum_length, encodeHeader_length]
  by_cases hzero : payload.length = 0
  · rw [if_pos hzero, if_neg (by omega), List.length_nil]
  · rw [if_neg hzero, if_pos (by omega), withChecksum_length]
    omega

/-- Settles O52: the encoded header in wire order with its checksum, and the payload with its own if there is any. -/
theorem encodeFrameLayout : Obligations.EncodeFrameLayout := by
  refine ⟨fun p h payload _ => ⟨?_, encodeFrame_length p h payload⟩, by decide +kernel⟩
  rw [encodeFrame, encodeHeader_bytes]
  cases payload with
  | nil => rfl
  | cons b bs => rfl

end Sys2Proof.Machine

/-! ### What is refused (spec 60_exceptions.md R187)

NOP and INIT are never refused. RESET and PUSH are refused for one reason, whatever the parser state: no INIT has come. -/

namespace Sys2Proof.Machine

/-- RESET is refused exactly before INIT (R123). -/
theorem exec_reset_refused {s : State} {r : Refusal} :
    exec .reset s = .refused r ↔ s.initialized = false ∧ r = .notInit := by
  cases hi : s.initialized with
  | true => simp [exec_reset hi]
  | false => simp [exec_reset_not_init hi, eq_comm (a := Refusal.notInit)]

theorem exec_refused {i : Instr} {s : State} {r : Refusal} :
    exec i s = .refused r ↔ s.initialized = false ∧ r = .notInit ∧ (i = .reset ∨ ∃ b, i = .push b) := by
  cases i with
  | nop => simp [exec_nop]
  | push b => simp [exec_push, pushWith_refused]
  | reset => simp [exec_reset_refused]
  | init => simp [exec_init]

/-- A waiting command is refused because its word is reserved, or because its instruction is. -/
theorem step_refused {s : State} {c : Command} {rest : List Command} {r : Refusal} (h : s.commands = c :: rest) :
    step s = .refused r ↔
      (decode c.word = .reserved ∧ r = .reserved)
      ∨ (s.initialized = false ∧ r = .notInit
          ∧ (decode c.word = .command .reset ∨ ∃ b, decode c.word = .command (.push b))) := by
  cases hd : decode c.word with
  | command i => simp [step_of_command h hd, exec_refused]
  | reserved => simp [step_of_reserved h hd, eq_comm (a := Refusal.reserved)]

/-- Settles O12: a run ends at the first step that is refused. -/
theorem refusalsAreReservedOrBeforeInit : Obligations.RefusalsAreReservedOrBeforeInit :=
  fun _ _ _ hc _ => ⟨step_refused hc, fun hr n => run_succ_refused n hr⟩

end Sys2Proof.Machine

/-! ### The stale-session guard (spec 60_exceptions.md R192) -/

namespace Sys2Proof.Machine

theorem readLastProgress_of_init {s : State} (h : s.initialized = true) : readLastProgress s = .next s.lastProgress :=
  if_pos h

theorem isStale_eq_true_iff {k : KernelParams} {now last : Time} :
    isStale k now last = true ↔ k.timeout * (k.maxRetries + 1) < (now - last).toNat :=
  decide_eq_true_iff

theorem guardCommands_idle (k : KernelParams) (now : Time) (s : State) : guardCommands k .idle now s = .next [] := rfl

/-- Sending and Receiving are guarded alike. -/
theorem guardCommands_active {k : KernelParams} {role : Role} {now : Time} {s : State} (hrole : role ≠ .idle)
    (hi : s.initialized = true) :
    guardCommands k role now s = .next (if isStale k now s.lastProgress then [commandOf .reset now 0#32] else []) := by
  cases role with
  | idle => exact absurd rfl hrole
  | sending => simp only [guardCommands, readLastProgress_of_init hi]
  | receiving => simp only [guardCommands, readLastProgress_of_init hi]

/-- Settles O56: by the role, and in an active role by whether the parser is stale. -/
theorem staleSessionGuardIssuesReset : Obligations.StaleSessionGuardIssuesReset := by
  intro k role now s hi
  by_cases hrole : role = .idle
  · subst hrole
    exact ⟨[], guardCommands_idle k now s, fun hne => absurd rfl hne, fun _ => rfl⟩
  · refine ⟨_, guardCommands_active hrole hi, fun _ hlate => ?_, fun hquiet => ?_⟩
    · rw [if_pos (isStale_eq_true_iff.mpr hlate)]
      exact ⟨_, rfl, decode_encode .reset, rfl⟩
    · have htime := hquiet.resolve_left hrole
      exact if_neg fun hstale => Nat.not_lt.mpr htime (isStale_eq_true_iff.mp hstale)

end Sys2Proof.Machine

/-! ### RESET (spec 70_reset_and_hazards.md R212) -/

namespace Sys2Proof.Machine

/-- Settles O10: ResetParse and the stamp write these five registers alone. -/
theorem resetClearsParse : Obligations.ResetClearsParse := fun _ => exec_reset

end Sys2Proof.Machine

/-! ### What has no value at power-on is never read (spec 70_reset_and_hazards.md R210)

Two states with the same live bytes are run side by side. A step reads live bytes alone, and every byte that becomes live in it
is written in it; so the same live bytes stay the same. Of the invariant of R31 this needs the two facts of `CountsOk` only. -/

namespace Sys2Proof.Machine

/-- The state with other contents of the three buffers. -/
def State.withBuffers (s : State) (h p c : Memory) : State := { s with hbuf := h, pbuf := p, pcrcRx := c }

/-- `f` neither reads nor writes a buffer. -/
def BufferBlind (f : State → State) : Prop :=
  ∀ (s : State) (h p c : Memory), f (s.withBuffers h p c) = (f s).withBuffers h p c

/-- The whole header is counted in ReadingPayload, and payload bytes are counted only there (R25, R27, R31). -/
def CountsOk (s : State) : Prop :=
  (s.pstate = .readingPayload → s.hcount = 19) ∧ (s.pstate ≠ .readingPayload → s.pcount = 0)

/-! #### CountsOk is kept -/

/-- ResetParse clears both counts (R124). -/
theorem countsOk_resetParse (s : State) : CountsOk s.resetParse := ⟨nofun, fun _ => rfl⟩

/-- A complete header ends the frame or, counted whole, enters ReadingPayload (R129). -/
theorem countsOk_headerComplete (p : Params) (hb : List Byte) {s : State} (h : s.hcount = 19) :
    CountsOk (headerComplete p hb s) := by
  obtain ⟨-, e⟩ | ⟨-, -, e⟩ | ⟨-, -, -, e⟩ | ⟨-, -, -, e⟩ | ⟨-, -, -, -, e⟩ := headerComplete_cases p hb s <;> rw [e]
  iterate 4 exact countsOk_resetParse _
  · exact ⟨fun _ => h, fun hne => absurd rfl hne⟩

theorem CountsOk.pushWith {p : Params} {b : Byte} {s t : State} (hs : CountsOk s) (h : pushWith p b s = .next t) :
    CountsOk t := by
  obtain ⟨hheader, hpayload⟩ := hs
  obtain ⟨-, ⟨hp, -, rfl⟩ | ⟨hp, -, rfl | rfl | rfl⟩ | ⟨hp, -, rfl⟩ | ⟨-, -, bs, -, rfl⟩ | ⟨hp, hb, -, -, -, rfl⟩
    | ⟨hp, hb, -, -, rfl⟩ | ⟨-, hb, pl, lo, -, -, -, -, ⟨-, rfl⟩ | ⟨-, rfl⟩⟩⟩ := push_cases h
  · exact ⟨hheader, hpayload⟩
  · exact ⟨nofun, fun _ => hpayload (by simp [hp])⟩
  iterate 2 exact ⟨hheader, hpayload⟩
  · exact ⟨fun he => absurd (hp.symm.trans he) (by simp), hpayload⟩
  · exact countsOk_headerComplete p _ rfl
  iterate 2 exact ⟨hheader, fun hne => absurd hp hne⟩
  iterate 2 exact countsOk_resetParse _

theorem CountsOk.exec {i : Instr} {s t : State} (hs : CountsOk s) (h : exec i s = .next t) : CountsOk t := by
  cases i with
  | nop => cases h; exact hs
  | push b => exact CountsOk.pushWith hs h
  | reset =>
    obtain ⟨-, rfl⟩ := exec_reset_next.mp h
    exact countsOk_resetParse s
  | init => cases h; exact countsOk_resetParse s

theorem CountsOk.step {s t : State} (hs : CountsOk s) (h : step s = .next t) : CountsOk t := by
  obtain ⟨-, rfl⟩ | ⟨c, rest, i, -, -, he⟩ := step_next h
  · exact hs
  · exact CountsOk.exec (s := s.present c rest) hs he

/-! #### What two states with the same live bytes share -/

/-- States with the same live bytes differ in the buffers alone. -/
theorem SameLive.exists_eq {s s' : State} (h : SameLive s s') : ∃ hm pm cm, s' = s.withBuffers hm pm cm :=
  ⟨_, _, _, h.1⟩

/-- The registers and the waiting commands, on which the course of a step depends. -/
theorem SameLive.registers {s s' : State} (h : SameLive s s') :
    s'.initialized = s.initialized ∧ s'.pstate = s.pstate ∧ s'.hcount = s.hcount ∧ s'.pcount = s.pcount
      ∧ s'.commands = s.commands := by
  obtain ⟨hm, pm, cm, rfl⟩ := h.exists_eq
  exact ⟨rfl, rfl, rfl, rfl, rfl⟩

/-- The header bytes counted so far are live. -/
theorem SameLive.header_slice {s s' : State} {n : Nat} (h : SameLive s s') (hn : n ≤ s.hcount) :
    Memory.slice s'.hbuf 0 n = Memory.slice s.hbuf 0 n := by
  obtain ⟨-, hread, -, -⟩ := h
  exact Memory.slice_congr fun i hi => hread (0 + i) (by omega)

/-- The payload bytes counted so far are live. -/
theorem SameLive.payload_slice {s s' : State} {n : Nat} (h : SameLive s s') (hn : n ≤ s.pcount) (hl : n ≤ lenOf s) :
    Memory.slice s'.pbuf 0 n = Memory.slice s.pbuf 0 n := by
  obtain ⟨-, -, hread, -⟩ := h
  exact Memory.slice_congr fun i hi => hread (0 + i) (by omega) (by omega)

/-- The low checksum byte is live as soon as it is counted. -/
theorem SameLive.checksum_read {s s' : State} (h : SameLive s s') (hl : lenOf s < s.pcount) :
    Memory.read s'.pcrcRx 0 = Memory.read s.pcrcRx 0 := by
  obtain ⟨-, -, -, hread⟩ := h
  exact hread 0 hl

/-! #### Operations that keep the live bytes the same -/

theorem lenOf_congr {s t : State} (h : t.hbuf = s.hbuf) : lenOf t = lenOf s := by
  rw [lenOf, lenOf, headerBytes_congr h]

theorem BufferBlind.keeps {f : State → State} (hf : BufferBlind f) (s : State) :
    (f s).hbuf = s.hbuf ∧ (f s).pbuf = s.pbuf ∧ (f s).pcrcRx = s.pcrcRx := by
  have hsame : f s = (f s).withBuffers s.hbuf s.pbuf s.pcrcRx := hf s s.hbuf s.pbuf s.pcrcRx
  rw [hsame]
  exact ⟨rfl, rfl, rfl⟩

/-- An update that does not touch the buffers and raises no count makes no byte live. -/
theorem SameLive.map {f : State → State} {s s' : State} (hf : BufferBlind f) (h : SameLive s s')
    (hh : (f s).hcount ≤ s.hcount) (hp : (f s).pcount ≤ s.pcount) : SameLive (f s) (f s') := by
  obtain ⟨hm, pm, cm, rfl⟩ := h.exists_eq
  obtain ⟨-, hheader, hpayload, hchecksum⟩ := h
  obtain ⟨hhbuf, hpbuf, hpcrcRx⟩ := hf.keeps s
  rw [hf]
  refine ⟨rfl, fun a ha => ?_, fun a ha hl => ?_, fun a ha => ?_⟩
  · rw [hhbuf]
    exact hheader a (by omega)
  · rw [hpbuf]
    exact hpayload a (by omega) (lenOf_congr hhbuf ▸ hl)
  · rw [hpcrcRx]
    rw [lenOf_congr hhbuf] at ha
    exact hchecksum a (by omega)

/-- The next byte of a buffer is written in both, and the bytes below it are the same already. -/
theorem read_write_congr {m m' : Memory} {n a : Nat} (b : Byte) (h : a < n → Memory.read m' a = Memory.read m a)
    (ha : a < n + 1) : Memory.read (Memory.write m' n b) a = Memory.read (Memory.write m n b) a := by
  rw [Memory.read_write, Memory.read_write]
  by_cases hn : a = n
  · rw [if_pos hn, if_pos hn]
  · rw [if_neg hn, if_neg hn]
    exact h (by omega)

/-- `HBUF[HCOUNT] <- b; HCOUNT <- HCOUNT + 1` (R128). -/
def State.pushHeader (s : State) (b : Byte) : State :=
  (s.setBuf .hbuf (Memory.write s.hbuf s.hcount b)).setHcount (s.hcount + 1)

/-- `PBUF[PCOUNT] <- b; PCOUNT <- PCOUNT + 1` (R135). -/
def State.pushPayload (s : State) (b : Byte) : State :=
  (s.setBuf .pbuf (Memory.write s.pbuf s.pcount b)).setPcount (s.pcount + 1)

/-- `PCRC_RX[i] <- b; PCOUNT <- PCOUNT + 1` (R136, R137). -/
def State.pushChecksum (s : State) (i : Nat) (b : Byte) : State :=
  (s.setBuf .pcrcRx (Memory.write s.pcrcRx i b)).setPcount (s.pcount + 1)

/-- A header byte may change LEN, but no payload byte is counted yet. -/
theorem SameLive.pushHeader {s s' : State} (b : Byte) (h : SameLive s s') (hp : s.pcount = 0) :
    SameLive (s.pushHeader b) (s'.pushHeader b) := by
  obtain ⟨hm, pm, cm, rfl⟩ := h.exists_eq
  obtain ⟨-, hheader, -, -⟩ := h
  refine ⟨rfl, fun a ha => read_write_congr b (hheader a) ha, fun a ha => ?_, fun a ha => ?_⟩
  · exact absurd (hp ▸ ha) (Nat.not_lt_zero a)
  · exact absurd (hp ▸ ha) (Nat.not_lt_zero _)

theorem SameLive.pushPayload {s s' : State} (b : Byte) (h : SameLive s s') (hlt : s.pcount < lenOf s) :
    SameLive (s.pushPayload b) (s'.pushPayload b) := by
  obtain ⟨hm, pm, cm, rfl⟩ := h.exists_eq
  obtain ⟨-, hheader, hpayload, hchecksum⟩ := h
  refine ⟨rfl, hheader, fun a ha hl => read_write_congr b (fun hlow => hpayload a hlow hl) ha, fun a ha => ?_⟩
  have hcount : lenOf s + a < s.pcount + 1 := ha
  omega

theorem SameLive.pushChecksum {s s' : State} {i : Nat} (b : Byte) (h : SameLive s s') (hi : s.pcount = lenOf s + i) :
    SameLive (s.pushChecksum i b) (s'.pushChecksum i b) := by
  obtain ⟨hm, pm, cm, rfl⟩ := h.exists_eq
  obtain ⟨-, hheader, hpayload, hchecksum⟩ := h
  refine ⟨rfl, hheader, fun a ha (hl : a < lenOf s) => hpayload a (by omega) hl, fun a ha => ?_⟩
  have hcount : lenOf s + a < s.pcount + 1 := ha
  exact read_write_congr b (fun hlow => hchecksum a (by omega)) (by omega)

/-! #### PUSH reads live bytes only -/

/-- The header checks work on the bytes they are given (R129). -/
theorem bufferBlind_headerComplete (p : Params) (hb : List Byte) : BufferBlind (headerComplete p hb) := by
  intro s hm pm cm
  have hid : (s.withBuffers hm pm cm).localId = s.localId := rfl
  simp only [headerComplete_eq, hid, apply_ite (State.withBuffers · hm pm cm)]
  rfl

theorem headerComplete_counts_le (p : Params) (hb : List Byte) (s : State) :
    (headerComplete p hb s).hcount ≤ s.hcount ∧ (headerComplete p hb s).pcount ≤ s.pcount := by
  obtain ⟨-, e⟩ | ⟨-, -, e⟩ | ⟨-, -, -, e⟩ | ⟨-, -, -, e⟩ | ⟨-, -, -, -, e⟩ := headerComplete_cases p hb s <;> rw [e]
  iterate 4 exact ⟨Nat.zero_le _, Nat.zero_le _⟩
  · exact ⟨Nat.le_refl _, Nat.zero_le _⟩

/-- The end of a frame with a payload, by the check of the bytes at hand (R137). -/
def State.finishPayload (hb payload rx : List Byte) (s : State) : State :=
  if payloadCheck payload rx = true then payloadAccept hb payload rx s else payloadCrcError hb payload rx s

theorem bufferBlind_finishPayload (hb payload rx : List Byte) : BufferBlind (State.finishPayload hb payload rx) := by
  intro s hm pm cm
  unfold State.finishPayload
  split <;> rfl

theorem finishPayload_counts (hb payload rx : List Byte) (s : State) :
    (s.finishPayload hb payload rx).hcount = 0 ∧ (s.finishPayload hb payload rx).pcount = 0 := by
  unfold State.finishPayload
  split <;> exact ⟨rfl, rfl⟩

theorem pushHeader_last {s : State} (b : Byte) (h : s.hcount = 18) :
    s.pushHeader b = (s.setBuf .hbuf (Memory.write s.hbuf 18 b)).setHcount 19 := by
  rw [State.pushHeader, h]

theorem pushChecksum_high {s : State} {n : Nat} (b : Byte) (h : s.pcount = n + 1) :
    s.pushChecksum 1 b = (s.setBuf .pcrcRx (Memory.write s.pcrcRx 1 b)).setPcount (n + 2) := by
  rw [State.pushChecksum, h]

/-- HeaderByte reads HBUF when HCOUNT bytes of it and the one just stored are all 19 (R128). -/
theorem headerByte_sameLive {p : Params} {b : Byte} {s s' t : State} (hs : SameLive s s') (hp : s.pcount = 0)
    (h : headerByte p b s = .next t) : ∃ t', headerByte p b s' = .next t' ∧ SameLive t t' := by
  obtain ⟨-, -, hcount, -, -⟩ := hs.registers
  have hstored : SameLive (s.pushHeader b) (s'.pushHeader b) := hs.pushHeader b hp
  obtain ⟨h19, h18, rfl⟩ | ⟨h18, bs, hbs, rfl⟩ := headerByte_next h
  · exact ⟨_, headerByte_of_lt (by omega), hstored⟩
  · have hbs' : Memory.slice s'.hbuf 0 18 = some bs := (hs.header_slice (by omega)).trans hbs
    refine ⟨_, headerByte_last (hcount.trans h18) hbs', ?_⟩
    rw [← pushHeader_last b h18, ← pushHeader_last b (hcount.trans h18)]
    obtain ⟨hh, hp⟩ := headerComplete_counts_le p (bs ++ [b]) (s.pushHeader b)
    exact hstored.map (bufferBlind_headerComplete p (bs ++ [b])) hh hp

/-- PayloadByte reads PBUF and PCRC_RX when all of the payload and the low checksum byte are counted (R137). -/
theorem payloadStore_sameLive {p : Params} {hb : List Byte} {b : Byte} {s s' t : State} (hs : SameLive s s')
    (hhb : headerBytes s = some hb) (h : payloadStore p hb b s = .next t) :
    ∃ t', payloadStore p hb b s' = .next t' ∧ SameLive t t' := by
  obtain ⟨-, -, -, hcount, -⟩ := hs.registers
  have hlen : lenOf s = (viewLen hb).toNat := lenOf_eq hhb
  obtain ⟨hlt, hmax, rfl⟩ | ⟨hlow, rfl⟩ | ⟨hhigh, payload, lo, hpl, hlo, rfl⟩ := payloadStore_next h
  · exact ⟨_, payloadStore_of_lt (by omega) (by omega), hs.pushPayload b (by omega)⟩
  · exact ⟨_, payloadStore_low (hcount.trans hlow), hs.pushChecksum b (i := 0) (by omega)⟩
  · have hpl' : Memory.slice s'.pbuf 0 (viewLen hb).toNat = some payload :=
      (hs.payload_slice (by omega) (by omega)).trans hpl
    have hlo' : Memory.read s'.pcrcRx 0 = some lo := (hs.checksum_read (by omega)).trans hlo
    have hstored : SameLive (s.pushChecksum 1 b) (s'.pushChecksum 1 b) := hs.pushChecksum b (by omega)
    refine ⟨_, payloadStore_high (hcount.trans hhigh) hpl' hlo', ?_⟩
    rw [← pushChecksum_high b hhigh, ← pushChecksum_high b (hcount.trans hhigh)]
    obtain ⟨hh, hp⟩ := finishPayload_counts hb payload [lo, b] (s.pushChecksum 1 b)
    exact hstored.map (bufferBlind_finishPayload hb payload [lo, b]) (by omega) (by omega)

/-- The timestamp (R141). -/
theorem SameLive.touch {s s' : State} (h : SameLive s s') : SameLive s.touch s'.touch :=
  h.map (fun _ _ _ _ => rfl) (Nat.le_refl _) (Nat.le_refl _)

/-- SeekLow and SeekHigh, by SEEK_MATCHED (R126, R127). -/
def State.seek (p : Params) (b : Byte) (s : State) : State := if s.seekMatched then seekHigh p b s else seekLow p b s

theorem bufferBlind_seek (p : Params) (b : Byte) : BufferBlind (State.seek p b) := by
  intro s hm pm cm
  have hmatched : (s.withBuffers hm pm cm).seekMatched = s.seekMatched := rfl
  simp only [State.seek, seekHigh, hmatched, apply_ite (State.withBuffers · hm pm cm)]
  rfl

/-- Entering ReadingHeader clears HCOUNT; otherwise the counts stay (R126, R127). -/
theorem seek_counts_le (p : Params) (b : Byte) (s : State) :
    (s.seek p b).hcount ≤ s.hcount ∧ (s.seek p b).pcount ≤ s.pcount := by
  unfold State.seek
  split
  · unfold seekHigh
    split
    · exact ⟨Nat.zero_le _, Nat.le_refl _⟩
    · split <;> exact ⟨Nat.le_refl _, Nat.le_refl _⟩
  · exact ⟨Nat.le_refl _, Nat.le_refl _⟩

theorem pushWith_sameLive {p : Params} {b : Byte} {s s' t : State} (hc : CountsOk s) (hs : SameLive s s')
    (h : pushWith p b s = .next t) : ∃ t', pushWith p b s' = .next t' ∧ SameLive t t' := by
  obtain ⟨hheader, hpayload⟩ := hc
  obtain ⟨hinit, hpstate, -, -, -⟩ := hs.registers
  obtain ⟨hi, ⟨hp, rfl⟩ | ⟨hp, h⟩ | ⟨hp, hb, hhb, h⟩⟩ := pushWith_next h
  · obtain ⟨hh, hp'⟩ := seek_counts_le p b s.touch
    exact ⟨_, pushWith_seek (hinit.trans hi) (hpstate.trans hp), hs.touch.map (bufferBlind_seek p b) hh hp'⟩
  · rw [pushWith_header (hinit.trans hi) (hpstate.trans hp)]
    exact headerByte_sameLive hs.touch (hpayload (by simp [hp])) h
  · have hhb' : headerBytes s' = some hb := (hs.header_slice (Nat.le_of_eq (hheader hp).symm)).trans hhb
    rw [pushWith_payload (hinit.trans hi) (hpstate.trans hp) hhb']
    exact payloadStore_sameLive hs.touch hhb h

/-! #### Runs side by side -/

theorem exec_sameLive {i : Instr} {s s' t : State} (hc : CountsOk s) (hs : SameLive s s') (h : exec i s = .next t) :
    ∃ t', exec i s' = .next t' ∧ SameLive t t' := by
  cases i with
  | nop =>
    cases h
    exact ⟨_, rfl, hs⟩
  | push b => exact pushWith_sameLive hc hs h
  | reset =>
    obtain ⟨hinit, -, -, -, -⟩ := hs.registers
    obtain ⟨hi, rfl⟩ := exec_reset_next.mp h
    exact ⟨_, exec_reset (hinit.trans hi),
      hs.map (f := fun u => u.resetParse.touch) (fun _ _ _ _ => rfl) (Nat.zero_le _) (Nat.zero_le _)⟩
  | init =>
    cases h
    exact ⟨_, exec_init s',
      hs.map (f := fun u => u.configure.resetParse.touch) (fun _ _ _ _ => rfl) (Nat.zero_le _) (Nat.zero_le _)⟩

theorem step_sameLive {s s' t : State} (hc : CountsOk s) (hs : SameLive s s') (h : step s = .next t) :
    ∃ t', step s' = .next t' ∧ SameLive t t' := by
  obtain ⟨-, -, -, -, hcommands⟩ := hs.registers
  obtain ⟨hnone, rfl⟩ | ⟨c, rest, i, hsome, hd, he⟩ := step_next h
  · exact ⟨_, step_of_empty (hcommands.trans hnone), hs⟩
  · rw [step_of_command (hcommands.trans hsome) hd]
    have hpresent : SameLive (s.present c rest) (s'.present c rest) :=
      hs.map (f := fun u => u.present c rest) (fun _ _ _ _ => rfl) (Nat.le_refl _) (Nat.le_refl _)
    exact exec_sameLive (s := s.present c rest) hc hpresent he

/-- A refusal depends on the command word and on INITIALIZED alone (R187). -/
theorem step_refused_of_sameLive {s s' : State} {r : Refusal} (hs : SameLive s s') (h : step s = .refused r) :
    step s' = .refused r := by
  obtain ⟨hinit, -, -, -, hcommands⟩ := hs.registers
  cases hc : s.commands with
  | nil =>
    rw [step_of_empty hc] at h
    cases h
  | cons c rest =>
    rw [step_refused (hcommands.trans hc), hinit]
    exact (step_refused hc).mp h

theorem run_sameLive {n : Nat} {s s' : State} (hc : CountsOk s) (hs : SameLive s s') :
    (∀ t, Host.Core.run Sys2Proof.core n s = .next t →
      ∃ t', Host.Core.run Sys2Proof.core n s' = .next t' ∧ SameLive t t')
    ∧ ∀ r, Host.Core.run Sys2Proof.core n s = .refused r → Host.Core.run Sys2Proof.core n s' = .refused r := by
  induction n generalizing s s' with
  | zero =>
    refine ⟨fun t h => ?_, nofun⟩
    cases h
    exact ⟨s', rfl, hs⟩
  | succ n ih =>
    cases hstep : step s with
    | next u =>
      obtain ⟨u', hstep', hu⟩ := step_sameLive hc hs hstep
      rw [run_succ_next n hstep, run_succ_next n hstep']
      exact ih (CountsOk.step hc hstep) hu
    | fault e =>
      rw [run_succ_fault n hstep]
      exact ⟨nofun, nofun⟩
    | refused e =>
      rw [run_succ_refused n hstep, run_succ_refused n (step_refused_of_sameLive hs hstep)]
      exact ⟨nofun, fun _ => id⟩

/-- With both counts 0 no byte is live. -/
theorem sameLive_of_counts_zero {s : State} (hh : s.hcount = 0) (hp : s.pcount = 0) (hm pm cm : Memory) :
    SameLive s (s.withBuffers hm pm cm) := by
  refine ⟨rfl, fun a ha => ?_, fun a ha => ?_, fun a ha => ?_⟩
  · exact absurd (hh ▸ ha) (Nat.not_lt_zero a)
  · exact absurd (hp ▸ ha) (Nat.not_lt_zero a)
  · exact absurd (hp ▸ ha) (Nat.not_lt_zero _)

/-- Settles O57: before INIT no command reads a register that has no value, and at power-on no byte of the buffers is live. -/
theorem powerOnContentsAreNeverRead : Obligations.PowerOnContentsAreNeverRead :=
  ⟨rfl, rfl, rfl, rfl, rfl, fun _ => rfl,
    fun _ _ => ⟨rfl, exec_reset_not_init rfl, fun b => exec_push_not_init b rfl⟩,
    fun h p c cs _ => run_sameLive (s := { State.reset with commands := cs }) ⟨nofun, fun _ => rfl⟩
      (sameLive_of_counts_zero rfl rfl h p c)⟩

end Sys2Proof.Machine

/-! ### The invariant of R31 (spec 10_state.md section 3)

Each of its three parts is kept on its own. The byte a PUSH stores is the next counted one of its buffer and lies inside the
array; what ends a frame, and INIT and RESET, clear the counts, so that nothing is claimed of what has been written. -/

namespace Sys2Proof.Machine

/-! #### What a PUSH stores -/

/-- PUSH stores nothing, or its byte in one buffer: at HCOUNT, at PCOUNT, or at PCOUNT − LEN (20_memory.md R58). -/
theorem pushWith_stores {p : Params} {b : Byte} {s t : State} (h : pushWith p b s = .next t) :
    (s.pstate = .seekStart ∧ ∀ k, t.buf k = s.buf k)
    ∨ (s.pstate = .readingHeader ∧ s.hcount < 19
        ∧ ∀ k, t.buf k = (s.setBuf .hbuf (Memory.write s.hbuf s.hcount b)).buf k)
    ∨ (s.pstate = .readingPayload ∧ s.pcount < lenOf s ∧ s.pcount < p.maxFrag
        ∧ ∀ k, t.buf k = (s.setBuf .pbuf (Memory.write s.pbuf s.pcount b)).buf k)
    ∨ (s.pstate = .readingPayload ∧ ∃ i, i < 2 ∧ s.pcount = lenOf s + i
        ∧ ∀ k, t.buf k = (s.setBuf .pcrcRx (Memory.write s.pcrcRx i b)).buf k) := by
  obtain ⟨-, ⟨hp, -, rfl⟩ | ⟨hp, -, rfl | rfl | rfl⟩ | ⟨hp, hlt, rfl⟩ | ⟨hp, h18, bs, -, rfl⟩ | ⟨hp, hb, hhb, hlt, hmax, rfl⟩
    | ⟨hp, hb, hhb, hlow, rfl⟩ | ⟨hp, hb, pl, lo, hhb, hhigh, -, -, ⟨-, rfl⟩ | ⟨-, rfl⟩⟩⟩ := push_cases h
  iterate 4 exact .inl ⟨hp, fun k => by cases k <;> rfl⟩
  · exact .inr (.inl ⟨hp, by omega, fun k => by cases k <;> rfl⟩)
  · obtain ⟨-, -, -, -, -, -, hhbuf, hpbuf, hpcrcRx⟩ := headerComplete_keeps p (bs ++ [b]) (s.fillHeader b)
    rw [h18]
    refine .inr (.inl ⟨hp, by omega, fun k => ?_⟩)
    cases k with
    | hbuf => exact hhbuf
    | pbuf => exact hpbuf
    | pcrcRx => exact hpcrcRx
  · exact .inr (.inr (.inl ⟨hp, lenOf_eq hhb ▸ hlt, hmax, fun k => by cases k <;> rfl⟩))
  · exact .inr (.inr (.inr ⟨hp, 0, by omega, lenOf_eq hhb ▸ hlow, fun k => by cases k <;> rfl⟩))
  iterate 2 exact .inr (.inr (.inr ⟨hp, 1, by omega, lenOf_eq hhb ▸ hhigh, fun k => by cases k <;> rfl⟩))

/-! #### The buffers -/

/-- A write inside its array keeps every buffer canonical and inside its array. -/
theorem BuffersOk.write {p : Params} {s : State} {k : Buffer} {i : Nat} (b : Byte) (h : BuffersOk p s) (hi : i < k.size p) :
    BuffersOk p (s.setBuf k (Memory.write (s.buf k) i b)) :=
  storeByte_keeps_buffers (storeByte_of_lt hi) h

theorem BuffersOk.pushWith {p : Params} {b : Byte} {s t : State} (hs : BuffersOk p s) (h : pushWith p b s = .next t) :
    BuffersOk p t := by
  obtain ⟨-, hbuf⟩ | ⟨-, hi, hbuf⟩ | ⟨-, -, hi, hbuf⟩ | ⟨-, i, hi, -, hbuf⟩ := pushWith_stores h
  · exact hs.congr hbuf
  · exact (hs.write (k := .hbuf) b hi).congr hbuf
  · exact (hs.write (k := .pbuf) b hi).congr hbuf
  · exact (hs.write (k := .pcrcRx) b hi).congr hbuf

/-! #### R31 by PSTATE -/

theorem phaseOk_seek {p : Params} {s : State} (hp : s.pstate = .seekStart) : PhaseOk p s ↔ SeekOk s := by
  simp only [PhaseOk, hp]

theorem phaseOk_header {p : Params} {s : State} (hp : s.pstate = .readingHeader) : PhaseOk p s ↔ HeaderOk s := by
  simp only [PhaseOk, hp]

theorem phaseOk_payload {p : Params} {s : State} (hp : s.pstate = .readingPayload) : PhaseOk p s ↔ PayloadOk p s := by
  simp only [PhaseOk, hp]

/-- R31 in ReadingPayload, at the header bytes at hand. -/
theorem PhaseOk.payload {p : Params} {s : State} {hb : List Byte} (h : PhaseOk p s) (hp : s.pstate = .readingPayload)
    (hhb : headerBytes s = some hb) : s.seekMatched = false ∧ s.hcount = 19 ∧ PayloadOkFor p hb s := by
  obtain ⟨hmatched, hcount, hb', hhb', hok⟩ := (phaseOk_payload hp).mp h
  obtain rfl : hb = hb' := Option.some.inj (hhb.symm.trans hhb')
  exact ⟨hmatched, hcount, hok⟩

theorem phaseOk_resetParse (p : Params) (s : State) : PhaseOk p s.resetParse := ⟨rfl, rfl⟩

/-- The marker is complete: no header byte is counted yet (R127). -/
theorem SeekOk.enterHeader {s : State} (h : SeekOk s) : HeaderOk s.enterHeader := by
  obtain ⟨-, hpcount⟩ := h
  exact ⟨rfl, Nat.zero_le 18, hpcount, Memory.written_zero _⟩

/-- One more header byte, short of the 19th (R128). -/
theorem HeaderOk.pushHeader {s : State} (b : Byte) (h : HeaderOk s) (hlt : s.hcount < 18) : HeaderOk (s.pushHeader b) := by
  obtain ⟨hmatched, -, hpcount, hw⟩ := h
  exact ⟨hmatched, hlt, hpcount, hw.write b⟩

/-- A complete header ends the frame, or it has passed every check that ReadingPayload relies on (R129, R134). -/
theorem phaseOk_headerComplete {p : Params} {hb : List Byte} {s : State} (hhb : headerBytes s = some hb)
    (hmatched : s.seekMatched = false) (hcount : s.hcount = 19) : PhaseOk p (headerComplete p hb s) := by
  obtain ⟨-, e⟩ | ⟨-, -, e⟩ | ⟨-, -, -, e⟩ | ⟨-, -, -, e⟩ | ⟨hcheck, hd, hpos, hmax, e⟩ := headerComplete_cases p hb s <;>
    rw [e]
  iterate 4 exact phaseOk_resetParse p _
  · have hnone (m : Memory) : Memory.Written m (min 0 (viewLen hb).toNat) := by
      rw [Nat.zero_min]
      exact Memory.written_zero m
    have hnone' (m : Memory) : Memory.Written m (0 - (viewLen hb).toNat) := by
      rw [Nat.zero_sub]
      exact Memory.written_zero m
    exact ⟨hmatched, hcount, hb, hhb, hpos, hmax, Nat.zero_le _, hd, hcheck, hnone _, hnone' _⟩

/-- One more payload byte: PBUF is written up to the new PCOUNT (R135). -/
theorem PayloadOkFor.pushPayload {p : Params} {hb : List Byte} {s : State} (b : Byte) (h : PayloadOkFor p hb s)
    (hlt : s.pcount < (viewLen hb).toNat) : PayloadOkFor p hb (s.pushPayload b) := by
  obtain ⟨hpos, hmax, -, hd, hcheck, hpbuf, hrx⟩ := h
  rw [Nat.min_eq_left (Nat.le_of_lt hlt)] at hpbuf
  exact ⟨hpos, hmax, Nat.succ_le_succ (Nat.le_of_lt hlt), hd, hcheck, (hpbuf.write b).mono (Nat.min_le_left _ _),
    hrx.mono (show s.pcount + 1 - _ ≤ _ by omega)⟩

/-- The low checksum byte: the payload is whole, and one byte of PCRC_RX is written (R136). -/
theorem PayloadOkFor.pushChecksum_low {p : Params} {hb : List Byte} {s : State} (b : Byte) (h : PayloadOkFor p hb s)
    (hlow : s.pcount = (viewLen hb).toNat) : PayloadOkFor p hb (s.pushChecksum 0 b) := by
  obtain ⟨hpos, hmax, -, hd, hcheck, hpbuf, -⟩ := h
  refine ⟨hpos, hmax, Nat.succ_le_succ (Nat.le_of_eq hlow), hd, hcheck,
    hpbuf.mono (show min (s.pcount + 1) _ ≤ _ by omega), ?_⟩
  exact ((Memory.written_zero s.pcrcRx).write b).mono (show s.pcount + 1 - _ ≤ 1 by omega)

/-- SEEK_MATCHED is free in SeekStart (R126, R127). -/
theorem phaseOk_setMatched {p : Params} {s : State} (m : Bool) (hp : s.pstate = .seekStart) (h : SeekOk s) :
    PhaseOk p (s.setMatched m) := (phaseOk_seek (s := s.setMatched m) hp).mpr h

theorem PhaseOk.pushWith {p : Params} {b : Byte} {s t : State} (hs : PhaseOk p s) (h : pushWith p b s = .next t) :
    PhaseOk p t := by
  obtain ⟨-, ⟨hp, -, rfl⟩ | ⟨hp, -, rfl | rfl | rfl⟩ | ⟨hp, hlt, rfl⟩ | ⟨hp, h18, bs, hbs, rfl⟩ | ⟨hp, hb, hhb, hlt, -, rfl⟩
    | ⟨hp, hb, hhb, hlow, rfl⟩ | ⟨-, hb, pl, lo, -, -, -, -, ⟨-, rfl⟩ | ⟨-, rfl⟩⟩⟩ := push_cases h
  · exact phaseOk_setMatched (s := s.touch) _ hp ((phaseOk_seek hp).mp hs)
  · exact ((phaseOk_seek hp).mp hs).enterHeader
  iterate 2 exact phaseOk_setMatched (s := s.touch) _ hp ((phaseOk_seek hp).mp hs)
  · have hok : HeaderOk s.touch := (phaseOk_header hp).mp hs
    exact (phaseOk_header (s := s.touch.pushHeader b) hp).mpr (hok.pushHeader b hlt)
  · obtain ⟨hmatched, -⟩ := (phaseOk_header hp).mp hs
    exact phaseOk_headerComplete (s := s.fillHeader b) (Memory.slice_write_end b hbs) hmatched rfl
  · obtain ⟨hmatched, hcount, (hok : PayloadOkFor p hb s.touch)⟩ := hs.payload hp hhb
    exact (phaseOk_payload (s := s.touch.pushPayload b) hp).mpr ⟨hmatched, hcount, hb, hhb, hok.pushPayload b hlt⟩
  · obtain ⟨hmatched, hcount, (hok : PayloadOkFor p hb s.touch)⟩ := hs.payload hp hhb
    exact (phaseOk_payload (s := s.touch.pushChecksum 0 b) hp).mpr ⟨hmatched, hcount, hb, hhb, hok.pushChecksum_low b hlow⟩
  iterate 2 exact phaseOk_resetParse p _

/-! #### Every command, every step -/

/-- After ResetParse all of R31 but the buffers is by definition. -/
theorem consistent_resetParse {p : Params} {s : State} (h : BuffersOk p s) : Consistent p s.resetParse :=
  ⟨phaseOk_resetParse p s, fun _ => ⟨rfl, rfl⟩, h.congr fun k => State.resetParse_buf s k⟩

theorem Consistent.pushWith {p : Params} {b : Byte} {s t : State} (hs : Consistent p s) (h : pushWith p b s = .next t) :
    Consistent p t := by
  obtain ⟨hphase, -, hbuf⟩ := hs
  obtain ⟨hi, -⟩ := push_cases h
  obtain ⟨-, hinit, -⟩ := push_keeps h
  exact ⟨hphase.pushWith h, fun hf => absurd (hinit.trans hi) (ne_true_of_eq_false hf), hbuf.pushWith h⟩

/-- The timestamp is no part of the invariant. -/
theorem Consistent.touch {p : Params} {s : State} (h : Consistent p s) : Consistent p s.touch := by
  obtain ⟨hphase, hpre, hbuf⟩ := h
  exact ⟨hphase, hpre, hbuf.congr fun k => State.touch_buf s k⟩

/-- Presenting a command touches nothing that the invariant speaks of. -/
theorem Consistent.present {p : Params} {s : State} (h : Consistent p s) (c : Command) (rest : List Command) :
    Consistent p (s.present c rest) := by
  obtain ⟨hphase, hpre, hbuf⟩ := h
  exact ⟨hphase.present c rest, hpre, hbuf.congr fun k => State.present_buf s c rest k⟩

theorem BlockInv.exec {i : Instr} {s t : State} (hs : BlockInv s) (h : exec i s = .next t) : BlockInv t := by
  obtain ⟨-, -, hbuf⟩ := id hs
  cases i with
  | nop => cases h; exact hs
  | push b => exact Consistent.pushWith hs h
  | reset =>
    obtain ⟨-, rfl⟩ := exec_reset_next.mp h
    exact (consistent_resetParse hbuf).touch
  | init =>
    cases h
    exact (consistent_resetParse (hbuf.congr fun k => State.configure_buf s k)).touch

/-- Settles O39: by the command the step performs; PUSH keeps each of the three parts, INIT and RESET reset the parse. -/
theorem stepKeepsInvariant : Obligations.StepKeepsInvariant := by
  intro s t hs h
  obtain ⟨-, rfl⟩ | ⟨c, rest, i, -, -, he⟩ := step_next h
  · exact hs
  · exact BlockInv.exec (Consistent.present hs c rest) he

/-- Settles O38: both counts are 0, and the buffers are empty. -/
theorem powerOnStateMeetsInvariant : Obligations.PowerOnStateMeetsInvariant :=
  ⟨⟨rfl, rfl⟩, fun _ => ⟨rfl, rfl⟩, reset_buffers _⟩

end Sys2Proof.Machine

/-! ### Whole frames (spec 41_parser.md section 7; 95_test_vectors.md W-5)

A stream of PUSHes is followed from place to place in a frame: frame start, marker half matched, in the header, in the
payload. `Emits` says where a piece of the stream leads and what it emits; pieces are put together by `Emits.append`, and
the piece of one byte is the rule for that byte. -/

namespace Sys2Proof.Machine

/-! #### Streams of PUSHes -/

/-- From every state in `P` with LOCAL_ID = `id`, PUSHes of `bs`, with any side inputs, lead to a state in `Q`, emit exactly
`es`, leave LOCAL_ID alone and take no further command. -/
def Emits (id : NodeId) (P : State → Prop) (bs : List Byte) (es : List Event) (Q : State → Prop) : Prop :=
  ∀ (s : State) (cs rest : List Command), P s → s.localId = id → s.commands = cs ++ rest → PushesOf cs bs →
    ∃ t, Host.Core.run Sys2Proof.core cs.length s = .next t ∧ Q t ∧ t.events = s.events ++ es ∧ t.localId = id
      ∧ t.commands = rest

/-- What is known of a place does not speak of the port. -/
def PortBlind (P : State → Prop) : Prop := ∀ (s : State) (c : Command) (rest : List Command), P s → P (s.present c rest)

theorem PushesOf.length {cs : List Command} {bs : List Byte} (h : PushesOf cs bs) : cs.length = bs.length := by
  simpa using congrArg List.length h

/-- The commands that push a concatenation are those that push its first part, then those that push its second. -/
theorem PushesOf.split {cs : List Command} {xs ys : List Byte} (h : PushesOf cs (xs ++ ys)) :
    ∃ cx cy, cs = cx ++ cy ∧ PushesOf cx xs ∧ PushesOf cy ys := by
  unfold PushesOf at h
  rw [List.map_append] at h
  obtain ⟨cx, cy, rfl, hx, hy⟩ := List.map_eq_append_iff.mp h
  exact ⟨cx, cy, rfl, hx, hy⟩

theorem Emits.nil (id : NodeId) (P : State → Prop) : Emits id P [] [] P := by
  intro s cs rest hP hid hcs hpush
  obtain rfl : cs = [] := List.length_eq_zero_iff.mp hpush.length
  exact ⟨s, rfl, hP, (List.append_nil _).symm, hid, hcs⟩

theorem Emits.append {id : NodeId} {P Q R : State → Prop} {xs ys : List Byte} {es es' : List Event}
    (hx : Emits id P xs es Q) (hy : Emits id Q ys es' R) : Emits id P (xs ++ ys) (es ++ es') R := by
  intro s cs rest hP hid hcs hpush
  obtain ⟨cx, cy, rfl, hpx, hpy⟩ := hpush.split
  obtain ⟨u, hrun, hQ, hev, hid', hrest⟩ := hx s cx (cy ++ rest) hP hid (by rw [hcs, List.append_assoc]) hpx
  obtain ⟨t, hrun', hR, hev', hid'', hrest'⟩ := hy u cy rest hQ hid' hrest hpy
  refine ⟨t, ?_, hR, ?_, hid'', hrest'⟩
  · rw [List.length_append, run_add _ hrun, hrun']
  · rw [hev', hev, List.append_assoc]

/-- The rule of one byte as a piece of a stream. -/
theorem Emits.byte {id : NodeId} {P Q : State → Prop} {b : Byte} {es : List Event} (hblind : PortBlind P)
    (hb : ∀ s, P s → s.localId = id → ∃ t, exec (.push b) s = .next t ∧ Q t ∧ t.events = s.events ++ es) :
    Emits id P [b] es Q := by
  intro s cs rest hP hid hcs hpush
  obtain ⟨c, rfl⟩ := List.length_eq_one_iff.mp hpush.length
  have hword : c.word = encode (.push b) := by simpa [PushesOf] using hpush
  obtain ⟨t, hexec, hQ, hev⟩ := hb (s.present c rest) (hblind s c rest hP) hid
  obtain ⟨hid', -, -, -, hrest, -⟩ := push_keeps hexec
  have hstep : step s = .next t := (step_push hcs hword).trans hexec
  exact ⟨t, run_succ_next 0 hstep, hQ, hev, hid'.trans hid, hrest⟩

/-- Bytes collected one by one, in silence, as long as there is room. -/
theorem Emits.collect {id : NodeId} {P : List Byte → State → Prop} {n : Nat}
    (hbyte : ∀ {bs : List Byte} (b : Byte), bs.length < n → Emits id (P bs) [b] [] (P (bs ++ [b]))) {bs bs' : List Byte}
    (hle : (bs ++ bs').length ≤ n) : Emits id (P bs) bs' [] (P (bs ++ bs')) := by
  induction bs' generalizing bs with
  | nil =>
    rw [List.append_nil]
    exact Emits.nil id _
  | cons b bs' ih =>
    rw [List.append_cons] at hle ⊢
    have hlt : bs.length < n := by
      simp only [List.length_append, List.length_singleton] at hle
      omega
    exact (hbyte b hlt).append (ih hle)

/-- A silent stream and one more byte: nothing is emitted before the last byte. -/
theorem Emits.last {id : NodeId} {P Q R : State → Prop} {bs : List Byte} {b : Byte} {es : List Event}
    (hinit : Emits id P bs [] Q) (hlast : Emits id Q [b] es R) {s : State} {cs rest : List Command} (hP : P s)
    (hid : s.localId = id) (hcs : s.commands = cs ++ rest) (hpush : PushesOf cs (bs ++ [b])) :
    (∃ u, Host.Core.run Sys2Proof.core (cs.length - 1) s = .next u ∧ u.events = s.events)
    ∧ ∃ t, Host.Core.run Sys2Proof.core cs.length s = .next t ∧ R t ∧ t.events = s.events ++ es ∧ t.localId = id
      ∧ t.commands = rest := by
  refine ⟨?_, (hinit.append hlast) s cs rest hP hid hcs hpush⟩
  obtain ⟨cx, cy, rfl, hpx, hpy⟩ := hpush.split
  obtain ⟨u, hrun, -, hev, -⟩ := hinit s cx (cy ++ rest) hP hid (by rw [hcs, List.append_assoc]) hpx
  refine ⟨u, ?_, by rw [hev, List.append_nil]⟩
  rwa [List.length_append, hpy.length, List.length_singleton, Nat.add_sub_cancel]

/-! #### Places within a frame -/

/-- SM_LO has been matched, SM_HI is looked for. -/
def MarkerHalfMatched (s : State) : Prop := s.initialized = true ∧ s.pstate = .seekStart ∧ s.seekMatched = true

/-- The header bytes `bs` have been received. -/
def InHeader (bs : List Byte) (s : State) : Prop :=
  s.initialized = true ∧ s.pstate = .readingHeader ∧ s.hcount = bs.length ∧ Memory.slice s.hbuf 0 bs.length = some bs

/-- The header `hb` and the payload bytes `bs` have been received. -/
def PayloadReceived (hb bs : List Byte) (s : State) : Prop :=
  InPayload s hb ∧ s.pcount = bs.length ∧ Memory.slice s.pbuf 0 bs.length = some bs

theorem AtHeaderEnd.initialized {s : State} {bs : List Byte} (h : AtHeaderEnd s bs) : s.initialized = true := by
  obtain ⟨hi, -, -, -⟩ := h
  exact hi

theorem AtPayloadEnd.initialized {s : State} {hb payload : List Byte} {lo : Byte} (h : AtPayloadEnd s hb payload lo) :
    s.initialized = true := by
  obtain ⟨⟨hi, -, -⟩, -, -, -⟩ := h
  exact hi

/-- After an end of frame the block is at a frame start. -/
theorem atFrameStart_frameEnded {s : State} (es : List Event) (h : s.initialized = true) : AtFrameStart (s.frameEnded es) :=
  ⟨h, rfl, rfl⟩

/-! #### The marker and the header -/

theorem emits_markerLow (id : NodeId) : Emits id AtFrameStart [smLo Config.params] [] MarkerHalfMatched := by
  refine Emits.byte (fun _ _ _ h => h) fun s hs _ => ?_
  obtain ⟨hi, hp, hm⟩ := hs
  exact ⟨_, seekLowLooksForFirstMarkerByte s _ hi hp hm, ⟨hi, hp, beq_self_eq_true _⟩, (List.append_nil _).symm⟩

/-- SM_HI is tested first, so the marker is found even where SM_LO = SM_HI (R127). -/
theorem emits_markerHigh (id : NodeId) : Emits id MarkerHalfMatched [smHi Config.params] [] (InHeader []) := by
  refine Emits.byte (fun _ _ _ h => h) fun s hs _ => ?_
  obtain ⟨hi, hp, hm⟩ := hs
  obtain ⟨-, hrule⟩ := seekHighLooksForSecondMarkerByte
  refine ⟨_, (hrule s _ hi hp hm).trans (congrArg _ (if_pos rfl)), ⟨hi, rfl, rfl, rfl⟩, (List.append_nil _).symm⟩

/-- A header byte short of the 19th (R128). -/
theorem emits_headerByte (id : NodeId) {bs : List Byte} (b : Byte) (hlt : bs.length < 18) :
    Emits id (InHeader bs) [b] [] (InHeader (bs ++ [b])) := by
  refine Emits.byte (fun _ _ _ h => h) fun s hs _ => ?_
  obtain ⟨hi, hp, hcount, hbs⟩ := hs
  obtain ⟨hrule, -⟩ := headerByteIsStoredAndCounted s b hi hp
  refine ⟨_, hrule (by omega), ⟨hi, hp, ?_, ?_⟩, (List.append_nil _).symm⟩
  · rw [List.length_append, ← hcount]
    rfl
  · rw [List.length_append, hcount]
    exact Memory.slice_write_end b hbs

/-- The marker and the first 18 bytes of the header. -/
theorem emits_toHeaderEnd (id : NodeId) {bs : List Byte} (hlen : bs.length = 18) :
    Emits id AtFrameStart ([smLo Config.params, smHi Config.params] ++ bs) [] (AtHeaderEnd · bs) := by
  have hheader := Emits.collect (emits_headerByte id) (bs := []) (Nat.le_of_eq hlen)
  have hend : InHeader bs = (AtHeaderEnd · bs) := by
    funext s
    simp only [InHeader, AtHeaderEnd, hlen]
  rw [← hend]
  exact ((emits_markerLow id).append (emits_markerHigh id)).append hheader

/-! #### The last header byte -/

theorem emits_emptyHeader {id : NodeId} {bs : List Byte} {b : Byte} (hvalid : headerCheck Config.params (bs ++ [b]) = true)
    (hd : viewDst (bs ++ [b]) = id) (hempty : viewLen (bs ++ [b]) = 0#16) :
    Emits id (AtHeaderEnd · bs) [b] [.frameOut (frameRecord (bs ++ [b]) none [])] AtFrameStart := by
  refine Emits.byte (fun _ _ _ h => h) fun s hs hid => ?_
  exact ⟨_, emptyFrameIsDispatchedAtOnce s bs b hs hvalid (hd.trans hid.symm) hempty, atFrameStart_frameEnded _ hs.initialized, rfl⟩

theorem emits_foreignHeader {id : NodeId} {bs : List Byte} {b : Byte} (hvalid : headerCheck Config.params (bs ++ [b]) = true)
    (hd : viewDst (bs ++ [b]) ≠ id) : Emits id (AtHeaderEnd · bs) [b] [] AtFrameStart := by
  refine Emits.byte (fun _ _ _ h => h) fun s hs hid => ?_
  exact ⟨_, foreignHeaderIsDroppedSilently s bs b hs hvalid (hid ▸ hd), atFrameStart_frameEnded _ hs.initialized, rfl⟩

theorem emits_payloadHeader {id : NodeId} {bs : List Byte} {b : Byte} (hvalid : headerCheck Config.params (bs ++ [b]) = true)
    (hd : viewDst (bs ++ [b]) = id) (hpos : 1 ≤ (viewLen (bs ++ [b])).toNat)
    (hmax : (viewLen (bs ++ [b])).toNat ≤ Config.maxFrag) :
    Emits id (AtHeaderEnd · bs) [b] [] (PayloadReceived (bs ++ [b]) []) := by
  refine Emits.byte (fun _ _ _ h => h) fun s hs hid => ?_
  refine ⟨_, addressedHeaderEntersPayload s bs b hs hvalid (hd.trans hid.symm) hpos hmax, ?_, (List.append_nil _).symm⟩
  obtain ⟨hi, -, -, hbs⟩ := hs
  exact ⟨⟨hi, rfl, Memory.slice_write_end b hbs⟩, rfl, rfl⟩

/-! #### The payload and its checksum -/

/-- A payload byte (R135). -/
theorem emits_payloadByte (id : NodeId) {hb bs : List Byte} (b : Byte) (hlt : bs.length < (viewLen hb).toNat)
    (hmax : (viewLen hb).toNat ≤ Config.maxFrag) :
    Emits id (PayloadReceived hb bs) [b] [] (PayloadReceived hb (bs ++ [b])) := by
  refine Emits.byte (fun _ _ _ h => h) fun s hs _ => ?_
  obtain ⟨hin, hcount, hbs⟩ := hs
  refine ⟨_, payloadByteIsStoredAndCounted s hb b hin (hcount ▸ hlt) hmax, ⟨hin, ?_, ?_⟩, (List.append_nil _).symm⟩
  · rw [List.length_append, ← hcount]
    rfl
  · rw [List.length_append, hcount]
    exact Memory.slice_write_end b hbs

theorem emits_checksumLow (id : NodeId) {hb payload : List Byte} (lo : Byte) (hlen : payload.length = (viewLen hb).toNat) :
    Emits id (PayloadReceived hb payload) [lo] [] (AtPayloadEnd · hb payload lo) := by
  refine Emits.byte (fun _ _ _ h => h) fun s hs _ => ?_
  obtain ⟨hin, hcount, hpayload⟩ := hs
  refine ⟨_, checksumLowByteIsStored s hb lo hin (hcount.trans hlen), ⟨hin, rfl, hlen ▸ hpayload, ?_⟩,
    (List.append_nil _).symm⟩
  exact Memory.read_write_same s.pcrcRx 0 lo

theorem emits_matchingPayload (id : NodeId) {hb payload : List Byte} {lo hi : Byte} (hcrc : crc16 payload = le16 lo hi) :
    Emits id (AtPayloadEnd · hb payload lo) [hi] [.frameOut (frameRecord hb (some (le16 lo hi)) payload)] AtFrameStart := by
  refine Emits.byte (fun _ _ _ h => h) fun s hs _ => ?_
  exact ⟨_, matchingPayloadIsDispatched s hb payload lo hi hs hcrc, atFrameStart_frameEnded _ hs.initialized, rfl⟩

theorem emits_corruptedPayload (id : NodeId) {hb payload : List Byte} {lo hi : Byte} (hcrc : crc16 payload ≠ le16 lo hi) :
    Emits id (AtPayloadEnd · hb payload lo) [hi]
      [.logPayCrc (crc16 payload) (le16 lo hi) (viewSrc hb), .nackReq (viewSrc hb)] AtFrameStart := by
  refine Emits.byte (fun _ _ _ h => h) fun s hs _ => ?_
  exact ⟨_, payloadCrcMismatchIsNacked s hb payload lo hi hs hcrc, atFrameStart_frameEnded _ hs.initialized, rfl⟩

/-! #### Encoded headers -/

/-- The 18 header-phase bytes of an encoded header before the last: the fields and the low checksum byte. -/
def encodedHeaderInit (p : Params) (h : Header) (len : Half) : List Byte :=
  headerFieldBytes h len ++ [(crc16 (encodeHeader p h len)).extractLsb' 0 8]

/-- The last header-phase byte of an encoded header: the high checksum byte. -/
def encodedHeaderLast (p : Params) (h : Header) (len : Half) : Byte := (crc16 (encodeHeader p h len)).extractLsb' 8 8

/-- The 19 bytes HBUF receives of an encoded header. -/
theorem encodedHeader_eq (p : Params) (h : Header) (len : Half) :
    encodedHeaderInit p h len ++ [encodedHeaderLast p h len]
      = headerFieldBytes h len ++ le16Bytes (crc16 (encodeHeader p h len)) :=
  List.append_assoc ..

theorem withChecksum_encodeHeader (p : Params) (h : Header) (len : Half) :
    withChecksum (encodeHeader p h len)
      = ([smLo p, smHi p] ++ encodedHeaderInit p h len) ++ [encodedHeaderLast p h len] := by
  rw [List.append_assoc, encodedHeader_eq, withChecksum, encodeHeader_eq]
  rfl

theorem encodedHeaderInit_length (p : Params) (h : Header) (len : Half) : (encodedHeaderInit p h len).length = 18 := rfl

/-- An encoded header passes the header check, and its views are what was encoded. -/
theorem encodedHeader_views (p : Params) (h : Header) (len : Half) :
    let hb := encodedHeaderInit p h len ++ [encodedHeaderLast p h len]
    headerCheck p hb = true ∧ viewHeader hb = h ∧ viewLen hb = len := by
  rw [encodedHeader_eq]
  obtain ⟨hheader, hlen, -, -⟩ := views_of_fields p h len (crc16 (encodeHeader p h len))
  exact ⟨headerCheck_of_fields p h len, hheader, hlen⟩

/-- The marker and the header phase of an encoded header but for its last byte. -/
theorem emits_encodedHeaderInit (id : NodeId) (h : Header) (len : Half) :
    Emits id AtFrameStart ([smLo Config.params, smHi Config.params] ++ encodedHeaderInit Config.params h len) []
      (AtHeaderEnd · (encodedHeaderInit Config.params h len)) :=
  emits_toHeaderEnd id (encodedHeaderInit_length ..)

/-- A checksummed byte sequence, its two checksum bytes apart. -/
theorem withChecksum_eq (bs : List Byte) :
    withChecksum bs = bs ++ [(crc16 bs).extractLsb' 0 8] ++ [(crc16 bs).extractLsb' 8 8] :=
  (List.append_assoc bs [_] [_]).symm

/-- MAX_FRAG is within the range of the 16-bit length field (00_scope.md R6). -/
theorem maxFrag_le : Config.maxFrag ≤ 65535 := Config.maxFragPred.isLt

/-- The length field carries every payload length up to MAX_FRAG. -/
theorem toNat_ofNat_of_le_maxFrag {n : Nat} (h : n ≤ Config.maxFrag) : (BitVec.ofNat 16 n).toNat = n :=
  (BitVec.toNat_ofNat ..).trans (Nat.mod_eq_of_lt (Nat.lt_succ_of_le (Nat.le_trans h maxFrag_le)))

/-- The encoded header of a frame addressed here, its payload and the low checksum byte. -/
theorem emits_toPayloadEnd {h : Header} {payload : List Byte} (lo : Byte) (hpos : 1 ≤ payload.length)
    (hmax : payload.length ≤ Config.maxFrag) :
    let len := BitVec.ofNat 16 payload.length
    let hb := encodedHeaderInit Config.params h len ++ [encodedHeaderLast Config.params h len]
    Emits h.dst AtFrameStart (withChecksum (encodeHeader Config.params h len) ++ payload ++ [lo]) []
      (AtPayloadEnd · hb payload lo) := by
  intro len hb
  obtain ⟨hvalid, hheader, hlen⟩ := encodedHeader_views Config.params h len
  have hd : viewDst hb = h.dst := congrArg Header.dst hheader
  have hnat : (viewLen hb).toNat = payload.length := (congrArg _ hlen).trans (toNat_ofNat_of_le_maxFrag hmax)
  rw [withChecksum_encodeHeader]
  have hheaderEnd := emits_payloadHeader hvalid hd (hnat ▸ hpos) (hnat ▸ hmax)
  have hpayload := Emits.collect (fun b hlt => emits_payloadByte h.dst b hlt (hnat ▸ hmax)) (bs := []) (Nat.le_of_eq hnat.symm)
  exact (((emits_encodedHeaderInit h.dst h len).append hheaderEnd).append hpayload).append (emits_checksumLow h.dst lo hnat.symm)

/-! #### The frames -/

/-- Settles O43: a frame without payload is out at the last header byte, one with a payload at the high checksum byte. -/
theorem encodedFrameIsReceived : Obligations.EncodedFrameIsReceived := by
  intro s h payload cs rest hs hd hmax hcs hpush
  obtain ⟨hvalid, hheader, hlen⟩ := encodedHeader_views Config.params h (BitVec.ofNat 16 payload.length)
  have hnat := (congrArg BitVec.toNat hlen).trans (toNat_ofNat_of_le_maxFrag hmax)
  rw [encodeFrame] at hpush
  by_cases hpos : payload.length > 0
  · rw [if_pos hpos, withChecksum_eq payload, ← List.append_assoc, ← List.append_assoc] at hpush
    have hlast := emits_matchingPayload h.dst
      (hb := encodedHeaderInit Config.params h (BitVec.ofNat 16 payload.length)
        ++ [encodedHeaderLast Config.params h (BitVec.ofNat 16 payload.length)])
      (le16_bytes (crc16 payload)).symm
    obtain ⟨hbefore, t, hrun, ht, hev, hid, hrest⟩ := (emits_toPayloadEnd _ hpos hmax).last hlast hs hd.symm hcs hpush
    exact ⟨hbefore, t, _, hrun, hev, hheader, rfl, hnat, ht, hid.trans hd, hrest⟩
  · obtain rfl : payload = [] := List.length_eq_zero_iff.mp (by omega)
    rw [if_neg hpos, List.append_nil, withChecksum_encodeHeader] at hpush
    have hlast := emits_emptyHeader hvalid (congrArg Header.dst hheader) hlen
    obtain ⟨hbefore, t, hrun, ht, hev, hid, hrest⟩ :=
      (emits_encodedHeaderInit h.dst h _).last hlast hs hd.symm hcs hpush
    exact ⟨hbefore, t, _, hrun, hev, hheader, rfl, hnat, ht, hid.trans hd, hrest⟩

/-- Settles O44: the last of the 21 bytes completes a valid header, which is dropped. -/
theorem foreignHeaderEmitsNothing : Obligations.ForeignHeaderEmitsNothing := by
  intro s h len cs rest hs hd hcs hpush
  obtain ⟨hvalid, hheader, -⟩ := encodedHeader_views Config.params h len
  have hdst : viewDst _ = h.dst := congrArg Header.dst hheader
  rw [withChecksum_encodeHeader] at hpush
  obtain ⟨t, hrun, ht, hev, hid, hrest⟩ :=
    ((emits_encodedHeaderInit s.localId h len).append (emits_foreignHeader hvalid (hdst.symm ▸ hd))) s cs rest hs rfl hcs hpush
  exact ⟨t, hrun, hev.trans (List.append_nil _), ht, hid, hrest⟩

/-- Settles O45: nothing is emitted up to the low checksum byte, and the high one completes a payload that does not match. -/
theorem corruptedPayloadIsNackedOnce : Obligations.CorruptedPayloadIsNackedOnce := by
  intro s h payload lo hi cs rest hs hd hpos hmax hcrc hcs hpush
  obtain ⟨-, hheader, -⟩ := encodedHeader_views Config.params h (BitVec.ofNat 16 payload.length)
  have hsrc : viewSrc _ = h.src := congrArg Header.src hheader
  rw [List.append_cons] at hpush
  obtain ⟨t, hrun, ht, hev, hid, hrest⟩ :=
    ((emits_toPayloadEnd lo hpos hmax).append (emits_corruptedPayload h.dst hcrc)) s cs rest hs hd.symm hcs hpush
  rw [hsrc] at hev
  exact ⟨t, hrun, hev, ht, hid.trans hd, hrest⟩

end Sys2Proof.Machine

/-! ### Frames of all commands, and how a run goes on (spec 60_exceptions.md section 3; 41_parser.md section 7)

What every command does to the events, LOCAL_ID, the buffers and the waiting commands; what the commands that wait behind
it cannot change; what a stale byte cannot change. -/

namespace Sys2Proof.Machine

/-! #### Events -/

/-- The event lists of a PUSH: nothing, or those of the four ends of a frame that emit (R130, R132, R133, R138, R139). -/
def PushEvents (es : List Event) : Prop :=
  es = [] ∨ (∃ r, es = [.frameOut r]) ∨ (∃ computed received, es = [.logHdrCrc computed received])
    ∨ (∃ len, es = [.logLen len]) ∨ ∃ computed received src, es = [.logPayCrc computed received src, .nackReq src]

/-- An update that emits nothing. -/
theorem pushEvents_silent {s t : State} (h : t.events = s.events) : ∃ es, t.events = s.events ++ es ∧ PushEvents es :=
  ⟨[], h.trans (List.append_nil _).symm, .inl rfl⟩

theorem headerComplete_pushEvents (p : Params) (hb : List Byte) (s : State) :
    ∃ es, (headerComplete p hb s).events = s.events ++ es ∧ PushEvents es := by
  obtain ⟨-, e⟩ | ⟨-, -, e⟩ | ⟨-, -, -, e⟩ | ⟨-, -, -, e⟩ | ⟨-, -, -, -, e⟩ := headerComplete_cases p hb s <;> rw [e]
  · exact ⟨_, rfl, .inr (.inr (.inl ⟨_, _, rfl⟩))⟩
  · exact ⟨_, rfl, .inl rfl⟩
  · exact ⟨_, rfl, .inr (.inr (.inr (.inl ⟨_, rfl⟩)))⟩
  · exact ⟨_, rfl, .inr (.inl ⟨_, rfl⟩)⟩
  · exact pushEvents_silent rfl

theorem pushWith_pushEvents {p : Params} {b : Byte} {s t : State} (h : pushWith p b s = .next t) :
    ∃ es, t.events = s.events ++ es ∧ PushEvents es := by
  obtain ⟨-, ⟨-, -, rfl⟩ | ⟨-, -, rfl | rfl | rfl⟩ | ⟨-, -, rfl⟩ | ⟨-, -, bs, -, rfl⟩ | ⟨-, hb, -, -, -, rfl⟩
    | ⟨-, hb, -, -, rfl⟩ | ⟨-, hb, pl, lo, -, -, -, -, ⟨-, rfl⟩ | ⟨-, rfl⟩⟩⟩ := push_cases h
  iterate 5 exact pushEvents_silent rfl
  · exact headerComplete_pushEvents p (bs ++ [b]) (s.fillHeader b)
  iterate 2 exact pushEvents_silent rfl
  · exact ⟨_, rfl, .inr (.inl ⟨_, rfl⟩)⟩
  · exact ⟨_, rfl, .inr (.inr (.inr (.inr ⟨_, _, _, rfl⟩)))⟩

theorem exec_events_of_ne_push {i : Instr} {s t : State} (h : exec i s = .next t) (hi : ∀ b, i ≠ .push b) :
    t.events = s.events := by
  cases i with
  | nop => cases h; rfl
  | push b => exact absurd rfl (hi b)
  | reset =>
    obtain ⟨-, rfl⟩ := exec_reset_next.mp h
    rfl
  | init => cases h; rfl

/-- Settles O31: a PUSH emits one of the lists of `PushEvents`, every other command nothing. -/
theorem stepEmitsOneOfFiveEventLists : Obligations.StepEmitsOneOfFiveEventLists := by
  intro i s t h
  by_cases hi : ∃ b, i = .push b
  · obtain ⟨b, rfl⟩ := hi
    obtain ⟨es, he, hes⟩ := pushWith_pushEvents h
    refine ⟨es, he, ?_⟩
    obtain h0 | ⟨r, hr⟩ | ⟨computed, received, hr⟩ | ⟨len, hr⟩ | ⟨computed, received, src, hr⟩ := hes
    · exact .inl h0
    · exact .inr (.inl ⟨b, r, rfl, hr⟩)
    · exact .inr (.inr (.inl ⟨b, computed, received, rfl, hr⟩))
    · exact .inr (.inr (.inr (.inl ⟨b, len, rfl, hr⟩)))
    · exact .inr (.inr (.inr (.inr ⟨b, computed, received, src, rfl, hr⟩)))
  · have hquiet := exec_events_of_ne_push h fun b hb => hi ⟨b, hb⟩
    exact ⟨[], hquiet.trans (List.append_nil _).symm, .inl rfl⟩

/-! #### LOCAL_ID -/

/-- Settles O33: INIT alone writes LOCAL_ID, and it resets the parse. -/
theorem localIdChangesOnlyThroughInit : Obligations.LocalIdChangesOnlyThroughInit := by
  intro i s t h
  refine ⟨exec_localId_of_ne_init h, ?_⟩
  rintro rfl
  cases h
  exact ⟨rfl, rfl, rfl, rfl⟩

/-! #### The buffers -/

theorem exec_buf_of_ne_push {i : Instr} {s t : State} (h : exec i s = .next t) (hi : ∀ b, i ≠ .push b) (k : Buffer) :
    t.buf k = s.buf k := by
  cases i with
  | nop => cases h; rfl
  | push b => exact absurd rfl (hi b)
  | reset =>
    obtain ⟨-, rfl⟩ := exec_reset_next.mp h
    cases k <;> rfl
  | init =>
    cases h
    cases k <;> rfl

/-- A buffer written at the one index in `Q`. -/
theorem read_of_write {m m' : Memory} {i : Nat} {b : Byte} {Q : Nat → Prop} [DecidablePred Q]
    (hm : m' = Memory.write m i b) (hQ : ∀ a, Q a ↔ a = i) (a : Nat) :
    Memory.read m' a = if Q a then some b else Memory.read m a := by
  rw [hm, Memory.read_write]
  by_cases h : a = i
  · rw [if_pos h, if_pos ((hQ a).mpr h)]
  · rw [if_neg h, if_neg (mt (hQ a).mp h)]

/-- A buffer left alone, where no index is in `Q`. -/
theorem read_of_same {m m' : Memory} {b : Byte} {Q : Nat → Prop} [DecidablePred Q] (hm : m' = m) (hQ : ∀ a, ¬ Q a)
    (a : Nat) : Memory.read m' a = if Q a then some b else Memory.read m a := by
  rw [hm, if_neg (hQ a)]

/-- Settles O34: by the one byte, if any, that the PUSH stores. -/
theorem buffersChangeOnlyAtTheCountedByte : Obligations.BuffersChangeOnlyAtTheCountedByte := by
  refine ⟨fun i s t h hi => ?_, fun s t b h => ?_⟩
  · have hsame := exec_buf_of_ne_push h hi
    exact ⟨hsame .hbuf, hsame .pbuf, hsame .pcrcRx⟩
  obtain ⟨hid, hinit, hnow, hcfg, hcommands, -⟩ := push_keeps h
  obtain ⟨hp, hb⟩ | ⟨hp, hi, hb⟩ | ⟨hp, hlt, hi, hb⟩ | ⟨hp, i, hi, hcount, hb⟩ := pushWith_stores h
  · exact ⟨read_of_same (hb .hbuf) (by simp [hp]), read_of_same (hb .pbuf) (by simp [hp]),
      read_of_same (hb .pcrcRx) (by simp [hp]), by simp [hp], by simp [hp], by simp [hp], hid, hinit, hnow, hcfg, hcommands⟩
  · exact ⟨read_of_write (hb .hbuf) (by simp [hp]), read_of_same (hb .pbuf) (by simp [hp]),
      read_of_same (hb .pcrcRx) (by simp [hp]), fun _ => hi, by simp [hp], by simp [hp], hid, hinit, hnow, hcfg, hcommands⟩
  · exact ⟨read_of_same (hb .hbuf) (by simp [hp]), read_of_write (hb .pbuf) (by simp [hp, hlt]),
      read_of_same (hb .pcrcRx) (fun _ ⟨_, hle, _⟩ => absurd hle (Nat.not_le.mpr hlt)), by simp [hp], fun _ _ => hi, fun _ hle => absurd hle (Nat.not_le.mpr hlt),
      hid, hinit, hnow, hcfg, hcommands⟩
  · have hle : lenOf s ≤ s.pcount := by omega
    have hdiff : s.pcount - lenOf s = i := by omega
    exact ⟨read_of_same (hb .hbuf) (by simp [hp]), read_of_same (hb .pbuf) (by simp [Nat.not_lt.mpr hle]),
      read_of_write (hb .pcrcRx) (by simp [hp, hle, hdiff]), by simp [hp], fun _ hlt => absurd hlt (Nat.not_lt.mpr hle),
      fun _ _ => hdiff ▸ hi, hid, hinit, hnow, hcfg, hcommands⟩

/-! #### The waiting commands -/

theorem exec_commands {i : Instr} {s t : State} (h : exec i s = .next t) : t.commands = s.commands := by
  cases i with
  | nop => cases h; rfl
  | push b =>
    obtain ⟨-, -, -, -, hcommands, -⟩ := push_keeps h
    exact hcommands
  | reset =>
    obtain ⟨-, rfl⟩ := exec_reset_next.mp h
    rfl
  | init => cases h; rfl

/-- Settles O35: `present` takes the command off the list, and no meaning touches the list. -/
theorem stepTakesExactlyOneCommand : Obligations.StepTakesExactlyOneCommand := by
  intro s t h
  obtain ⟨hnone, rfl⟩ | ⟨c, rest, i, hsome, -, he⟩ := step_next h
  · rw [hnone]
    rfl
  · rw [exec_commands he, hsome]
    rfl

/-! #### Commands issued behind those that wait -/

/-- The header checks do not look at the waiting commands (R129). -/
theorem headerComplete_issue (p : Params) (hb : List Byte) (s : State) (cs : List Command) :
    headerComplete p hb (s.issue cs) = (headerComplete p hb s).issue cs := by
  simp only [headerComplete_eq, State.issue_localId, apply_ite (State.issue · cs)]
  rfl

theorem finishPayload_issue (hb payload rx : List Byte) (s : State) (cs : List Command) :
    (s.issue cs).finishPayload hb payload rx = (s.finishPayload hb payload rx).issue cs := by
  unfold State.finishPayload
  split <;> rfl

theorem seek_issue (p : Params) (b : Byte) (s : State) (cs : List Command) :
    (s.issue cs).seek p b = (s.seek p b).issue cs := by
  simp only [State.seek, seekHigh, State.issue_seekMatched, apply_ite (State.issue · cs)]
  rfl

theorem headerByte_issue {p : Params} {b : Byte} {s t : State} (cs : List Command) (h : headerByte p b s = .next t) :
    headerByte p b (s.issue cs) = .next (t.issue cs) := by
  obtain ⟨h19, h18, rfl⟩ | ⟨h18, bs, hbs, rfl⟩ := headerByte_next h
  · exact headerByte_of_lt (s := s.issue cs) (show s.hcount < 18 by omega)
  · have hcomplete := headerComplete_issue p (bs ++ [b]) ((s.setBuf .hbuf (Memory.write s.hbuf 18 b)).setHcount 19) cs
    exact (headerByte_last (s := s.issue cs) h18 hbs).trans (congrArg _ hcomplete)

theorem payloadStore_issue {p : Params} {hb : List Byte} {b : Byte} {s t : State} (cs : List Command)
    (h : payloadStore p hb b s = .next t) : payloadStore p hb b (s.issue cs) = .next (t.issue cs) := by
  obtain ⟨hlt, hmax, rfl⟩ | ⟨hlow, rfl⟩ | ⟨hhigh, payload, lo, hpl, hlo, rfl⟩ := payloadStore_next h
  · exact payloadStore_of_lt (s := s.issue cs) hlt hmax
  · exact payloadStore_low (s := s.issue cs) hlow
  · have hfinish := finishPayload_issue hb payload [lo, b]
      ((s.setBuf .pcrcRx (Memory.write s.pcrcRx 1 b)).setPcount ((viewLen hb).toNat + 2)) cs
    exact (payloadStore_high (s := s.issue cs) hhigh hpl hlo).trans (congrArg _ hfinish)

theorem pushWith_issue {p : Params} {b : Byte} {s t : State} (cs : List Command) (h : pushWith p b s = .next t) :
    pushWith p b (s.issue cs) = .next (t.issue cs) := by
  obtain ⟨hi, ⟨hp, rfl⟩ | ⟨hp, h⟩ | ⟨hp, hb, hhb, h⟩⟩ := pushWith_next h
  · exact (pushWith_seek (s := s.issue cs) hi hp).trans (congrArg _ (seek_issue p b s.touch cs))
  · exact (pushWith_header (s := s.issue cs) hi hp).trans (headerByte_issue (s := s.touch) cs h)
  · exact (pushWith_payload (s := s.issue cs) hi hp hhb).trans (payloadStore_issue (s := s.touch) cs h)

theorem exec_issue {i : Instr} {s t : State} (cs : List Command) (h : exec i s = .next t) :
    exec i (s.issue cs) = .next (t.issue cs) := by
  cases i with
  | nop => cases h; rfl
  | push b => exact pushWith_issue cs h
  | reset =>
    obtain ⟨hi, rfl⟩ := exec_reset_next.mp h
    exact exec_reset (s := s.issue cs) hi
  | init => cases h; rfl

/-- While a command waits, a step does not depend on those issued behind it. -/
theorem step_issue {s t : State} {c : Command} {rest : List Command} (cs : List Command) (hc : s.commands = c :: rest)
    (h : step s = .next t) : step (s.issue cs) = .next (t.issue cs) := by
  obtain ⟨hnone, -⟩ | ⟨c, rest, i, hsome, hd, he⟩ := step_next h
  · cases hc.symm.trans hnone
  · have hissued : (s.issue cs).commands = c :: (rest ++ cs) := by rw [State.issue_commands, hsome, List.cons_append]
    exact (step_of_command hissued hd).trans (exec_issue (s := s.present c rest) cs he)

/-- A run that takes the commands that wait does not depend on those issued behind them, and leaves only these. -/
theorem run_issue {s t : State} {xs : List Command} (ys : List Command) (hc : s.commands = xs)
    (h : Host.Core.run Sys2Proof.core xs.length s = .next t) :
    Host.Core.run Sys2Proof.core xs.length (s.issue ys) = .next (t.issue ys) ∧ t.commands = [] := by
  induction xs generalizing s with
  | nil =>
    cases h
    exact ⟨rfl, hc⟩
  | cons c rest ih =>
    rw [List.length_cons] at h ⊢
    cases hs : step s with
    | next u =>
      rw [run_succ_next _ hs] at h
      have hu : u.commands = rest := (stepTakesExactlyOneCommand s u hs).trans (congrArg List.tail hc)
      rw [run_succ_next _ (step_issue ys hc hs)]
      exact ih hu h
    | fault e => rw [run_succ_fault _ hs] at h; cases h
    | refused e => rw [run_succ_refused _ hs] at h; cases h

/-- Settles O36: `ys` waits behind `xs` without effect, and is all that waits when `xs` has been taken. -/
theorem chunkingHasNoEffect : Obligations.ChunkingHasNoEffect := by
  intro s t xs ys h
  obtain ⟨hrun, hnone⟩ := run_issue (s := { s with commands := xs }) ys rfl h
  have hleft : t.issue ys = { t with commands := ys } := by rw [State.issue, hnone, List.nil_append]
  exact (run_add ys.length hrun).trans (congrArg _ hleft)

/-! #### The end of a frame -/

/-- A complete header that leads to SeekStart has ended the frame (R130-R133). -/
theorem headerComplete_seekStart {p : Params} {hb : List Byte} {s : State}
    (h : (headerComplete p hb s).pstate = .seekStart) : ∃ es, headerComplete p hb s = s.endFrame es := by
  obtain ⟨-, e⟩ | ⟨-, -, e⟩ | ⟨-, -, -, e⟩ | ⟨-, -, -, e⟩ | ⟨-, -, -, -, e⟩ := headerComplete_cases p hb s
  iterate 4 exact ⟨_, e⟩
  · rw [e] at h
    cases h

/-- A PUSH leads back to SeekStart only through the one shared end of a frame. -/
theorem pushWith_seekStart {p : Params} {b : Byte} {s t : State} (h : pushWith p b s = .next t)
    (hs : s.pstate ≠ .seekStart) (ht : t.pstate = .seekStart) : ∃ u es, t = State.endFrame es u := by
  obtain ⟨-, ⟨hp, -, rfl⟩ | ⟨hp, -, rfl | rfl | rfl⟩ | ⟨hp, -, rfl⟩ | ⟨-, -, bs, -, rfl⟩ | ⟨hp, hb, -, -, -, rfl⟩
    | ⟨hp, hb, -, -, rfl⟩ | ⟨-, hb, pl, lo, -, -, -, -, ⟨-, rfl⟩ | ⟨-, rfl⟩⟩⟩ := push_cases h
  iterate 4 exact absurd hp hs
  · cases hp.symm.trans ht
  · exact ⟨_, headerComplete_seekStart ht⟩
  iterate 2 cases hp.symm.trans ht
  iterate 2 exact ⟨_, _, rfl⟩

/-- Settles O37: the end of a frame resets the parse, and every PUSH stamps and keeps LOCAL_ID. -/
theorem endOfFrameResynchronises : Obligations.EndOfFrameResynchronises := by
  intro s t b h hs ht
  obtain ⟨hi, -⟩ := push_cases h
  obtain ⟨hid, hinit, -, -, -, hstamp⟩ := push_keeps h
  obtain ⟨u, es, rfl⟩ := pushWith_seekStart h hs ht
  exact ⟨⟨hinit.trans hi, rfl, rfl⟩, rfl, rfl, hstamp, hid⟩

/-! #### Stale bytes -/

/-- R31 has the two facts about the counts that the comparison of two runs needs. -/
theorem PhaseOk.countsOk {p : Params} {s : State} (h : PhaseOk p s) : CountsOk s := by
  cases hp : s.pstate with
  | seekStart =>
    obtain ⟨-, hpcount⟩ := (phaseOk_seek hp).mp h
    exact ⟨by simp [hp], fun _ => hpcount⟩
  | readingHeader =>
    obtain ⟨-, -, hpcount, -⟩ := (phaseOk_header hp).mp h
    exact ⟨by simp [hp], fun _ => hpcount⟩
  | readingPayload =>
    obtain ⟨-, hcount, -⟩ := (phaseOk_payload hp).mp h
    exact ⟨fun _ => hcount, fun hne => absurd hp hne⟩

/-- Settles O40: a step reads live bytes alone, and a refusal no byte at all. -/
theorem staleBytesAreUnobservable : Obligations.StaleBytesAreUnobservable := by
  intro s s' hs hlive
  obtain ⟨hphase, -, -⟩ := hs
  exact ⟨fun _ => step_sameLive hphase.countsOk hlive, fun _ => step_refused_of_sameLive hlive⟩

end Sys2Proof.Machine

/-! ### The checksum (spec 40_crc.md)

CRC_STEP is eight rounds of `c ^ b`. Rounds are linear and lose nothing, and on a value whose low byte is 0 they only shift. -/

namespace Sys2Proof.Machine

/-! #### The residue -/

/-- CRC_STEP with the low byte of the checksum itself leaves the high byte. -/
theorem crcStep_low (c : Half) : crcStep c (c.extractLsb' 0 8) = (c.extractLsb' 8 8).setWidth 16 := by
  rw [crcStep, crcBits_low]
  · apply BitVec.eq_of_getLsbD_eq
    intro i hi
    simp only [BitVec.getLsbD_ushiftRight, BitVec.getLsbD_xor, BitVec.getLsbD_setWidth, BitVec.getLsbD_extractLsb']
    by_cases h : i < 8
    · simp only [h, show ¬ 8 + i < 8 by omega, hi, decide_true, decide_false, Bool.true_and, Bool.false_and, Bool.and_false,
        Bool.xor_false]
    · simp only [h, show ¬ 8 + i < 8 by omega, BitVec.getLsbD_of_ge c (8 + i) (by omega), decide_false, Bool.false_and,
        Bool.and_false, Bool.xor_false]
  · intro i hi
    simp only [BitVec.getLsbD_xor, BitVec.getLsbD_setWidth, BitVec.getLsbD_extractLsb', hi, show i < 16 by omega, decide_true,
      Bool.true_and, Nat.zero_add, Bool.xor_self]

/-- CRC_STEP with the byte that is all of the checksum leaves 0. -/
theorem crcStep_self (b : Byte) : crcStep (b.setWidth 16) b = 0#16 := by
  rw [crcStep, BitVec.xor_self]
  rfl

/-- Settles O47: the low byte shifts the checksum out to its high byte, which the high byte then cancels. -/
theorem crcResidueIsZero : Obligations.CrcResidueIsZero := by
  intro bs
  rw [crc_append, le16Bytes, List.foldl_cons, crcStep_low, List.foldl_cons, crcStep_self, List.foldl_nil]

/-! #### One changed byte -/

/-- Different checksums stay different under the same byte. -/
theorem crcStep_left_inj {c d : Half} {b : Byte} (h : crcStep c b = crcStep d b) : c = d :=
  (BitVec.xor_left_inj _).mp (crcBits_inj h)

/-- From one checksum, different bytes give different checksums. -/
theorem crcStep_right_inj {c : Half} {x y : Byte} (h : crcStep c x = crcStep c y) : x = y := by
  have hwide : x.setWidth 16 = y.setWidth 16 := (BitVec.xor_right_inj _).mp (crcBits_inj h)
  have hnarrow := congrArg (BitVec.setWidth 8) hwide
  rwa [BitVec.setWidth_setWidth_of_le x (by omega), BitVec.setWidth_setWidth_of_le y (by omega), BitVec.setWidth_eq,
    BitVec.setWidth_eq] at hnarrow

theorem foldl_crcStep_inj {c d : Half} {bs : List Byte} (h : bs.foldl crcStep c = bs.foldl crcStep d) : c = d := by
  induction bs generalizing c d with
  | nil => exact h
  | cons b bs ih => exact crcStep_left_inj (ih h)

/-- Settles O48: the two bytes give different checksums, and the bytes behind them keep these apart. -/
theorem crcDetectsOneChangedByte : Obligations.CrcDetectsOneChangedByte := by
  intro front back x y hne h
  rw [crc_append, crc_append] at h
  exact hne (crcStep_right_inj (foldl_crcStep_inj h))

/-! #### The table form -/

/-- The mask of the low byte. -/
theorem getLsbD_lowMask (i : Nat) : (0x00FF#16).getLsbD i = decide (i < 8) := by
  have hmask : (0x00FF#16) = (BitVec.allOnes 8).setWidth 16 := by decide
  rw [hmask, BitVec.getLsbD_setWidth, BitVec.getLsbD_allOnes, ← Bool.decide_and]
  exact decide_eq_decide.mpr (by omega)

/-- Eight rounds shift the high byte down and fold in the eight rounds of the low byte. -/
theorem crcBits_eight (x : Half) : crcBits 8 x = (x >>> 8) ^^^ crcBits 8 (x &&& 0x00FF#16) := by
  have hsplit : x = (x ^^^ (x &&& 0x00FF#16)) ^^^ (x &&& 0x00FF#16) := by
    rw [BitVec.xor_assoc, BitVec.xor_self, BitVec.xor_zero]
  have hlow : ∀ i, i < 8 → (x ^^^ (x &&& 0x00FF#16)).getLsbD i = false := by
    intro i hi
    simp only [BitVec.getLsbD_xor, BitVec.getLsbD_and, getLsbD_lowMask, hi, decide_true, Bool.and_true, Bool.xor_self]
  have hhigh : (x ^^^ (x &&& 0x00FF#16)) >>> 8 = x >>> 8 := by
    apply BitVec.eq_of_getLsbD_eq
    intro i _
    simp only [BitVec.getLsbD_ushiftRight, BitVec.getLsbD_xor, BitVec.getLsbD_and, getLsbD_lowMask,
      show ¬ 8 + i < 8 by omega, decide_false, Bool.and_false, Bool.xor_false]
  calc crcBits 8 x
      = crcBits 8 (x ^^^ (x &&& 0x00FF#16)) ^^^ crcBits 8 (x &&& 0x00FF#16) := by rw [← crcBits_xor, ← hsplit]
    _ = (x >>> 8) ^^^ crcBits 8 (x &&& 0x00FF#16) := by rw [crcBits_low 8 _ hlow, hhigh]

/-- Settles O49: the byte folded in does not reach the high byte of the checksum. -/
theorem crcTableFormIsEquivalent : Obligations.CrcTableFormIsEquivalent := by
  intro c b
  have hbyte : b.setWidth 16 >>> 8 = 0#16 := by
    apply BitVec.eq_of_getLsbD_eq
    intro i _
    rw [BitVec.getLsbD_ushiftRight, BitVec.getLsbD_setWidth, BitVec.getLsbD_of_ge b (8 + i) (by omega), Bool.and_false,
      BitVec.getLsbD_zero]
  rw [crcStep, crcBits_eight, BitVec.ushiftRight_xor_distrib, hbyte, BitVec.xor_zero]

/-- Settles O46: the values by evaluation. -/
theorem crcWorkedValues : Obligations.CrcWorkedValues := by
  unfold Obligations.CrcWorkedValues
  decide +kernel

end Sys2Proof.Machine

/-! ### The command port (spec 30_encoding.md section 1; 41_parser.md R120) -/

namespace Sys2Proof.Machine

/-- Settles O2: `idle` answers the state it is given. -/
theorem stepWithoutCommandChangesNothing : Obligations.StepWithoutCommandChangesNothing := fun _ => step_of_empty

/-- A table word is read as the command word of its number. -/
theorem decode_of_decodeTableWord {nbits w : Nat} {i : Instr} (h : decodeTableWord nbits w = some i) :
    decode (BitVec.ofNat 10 w) = .command i := by
  unfold decodeTableWord at h
  split at h
  · split at h
    case h_1 j hj => rw [hj, Option.some.inj h]
    case h_2 => cases h
  · cases h

/-- Settles O3: the word is placed with the side inputs the state holds, so that presenting it gives the state back. -/
theorem placedCommandWordIsPerformedNext : Obligations.PlacedCommandWordIsPerformedNext := by
  intro s nbits w i h
  have hfirst : (s.withFetchWord nbits w).commands
      = { word := BitVec.ofNat 10 w, now := s.now, cfgLocalId := s.cfgLocalId } :: s.commands := rfl
  exact step_of_command hfirst (decode_of_decodeTableWord h)

/-- Settles O5: the words by evaluation. -/
theorem workedCommandWordsDecode : Obligations.WorkedCommandWordsDecode := by
  unfold Obligations.WorkedCommandWordsDecode
  decide

/-- Settles O7: `decode_encode` one way, `encode_of_decode` the other. -/
theorem commandWordsRoundTrip : Obligations.CommandWordsRoundTrip :=
  ⟨decode_encode, fun _ _ => encode_of_decode⟩

/-- Settles O11: all that RESET writes but the timestamp, a second RESET writes as it stands. -/
theorem repeatedResetChangesOnlyLastProgress : Obligations.RepeatedResetChangesOnlyLastProgress := by
  intro s t later h
  obtain ⟨hi, rfl⟩ := exec_reset_next.mp h
  exact exec_reset hi

end Sys2Proof.Machine

/-! ### Before the first INIT (spec 10_state.md sections 1 and 5; 70_reset_and_hazards.md section 1) -/

namespace Sys2Proof.Machine

/-- INIT overwrites LOCAL_ID and LAST_PROGRESS before anything reads them (R122). -/
theorem exec_init_overwrites (s : State) (x : NodeId) (y : Time) :
    exec .init { s with localId := x, lastProgress := y } = exec .init s := rfl

/-- The read port has no value to give before INIT (R35). -/
theorem readLastProgress_not_init {s : State} (h : s.initialized = false) :
    readLastProgress s = .fault .unreadableRegister := if_neg (ne_true_of_eq_false h)

/-- Settles O41: INIT overwrites the two registers, and what would read them does not come to it. -/
theorem preInitRegisterValuesAreUnobservable : Obligations.PreInitRegisterValuesAreUnobservable :=
  fun s x y h => ⟨exec_init_overwrites s x y, exec_nop _, exec_reset_not_init h, fun b => exec_push_not_init b h,
    readLastProgress_not_init h⟩

/-- Settles O42: the fields of the power-on state, and what every state before INIT answers. -/
theorem powerOnStateIsAsSpecified : Obligations.PowerOnStateIsAsSpecified :=
  ⟨rfl, rfl, rfl, rfl, rfl, readLastProgress_not_init rfl, fun k a => by cases k <;> exact Memory.read_nil a,
    fun b => exec_push_not_init b rfl, exec_init_overwrites State.reset⟩

/-- Settles O55: by INITIALIZED. -/
theorem lastProgressReadPort : Obligations.LastProgressReadPort :=
  fun _ => ⟨readLastProgress_of_init, readLastProgress_not_init⟩

end Sys2Proof.Machine
